-- ==== Sys2Proof/Word.lean ====
section
/-! DEFINITION. The word types of the block (00_scope.md R7, 30_encoding.md R83, R90). -/

namespace Sys2Proof

/-- A u8: one byte of the blob (R25), or a pattern code (R92). -/
abbrev Byte := BitVec 8

/-- A u32: an offset, a size, the blob length, or a register of the host's view (R24, R28). -/
abbrev Word := BitVec 32

/-- An `int8`, held as its two's-complement pattern (R90): a weight, a bias, `q`, a layer output, `out_q`. -/
abbrev Code := BitVec 8

/-- A `FLOAT`, held as its binary32 pattern (R83, D7): `x` and `y`. -/
abbrev F32 := BitVec 32

end Sys2Proof
end

