-- ==== Sys2Proof/Syntax.lean ====
section
/-! DEFINITION. The six regions (00_scope.md R9) and every operation of spec/opcode_table.json (30_encoding.md R93). -/

namespace Sys2Proof

/-- The six regions, in the order of their indices 0 to 5 (R9). Indices 6 and 7 name no region (R87). -/
inductive Region where
  | w1 | b1 | w2 | b2 | wout | bout
deriving DecidableEq, Repr

/-- The operations. `nop`, `init` and `run` are the commands the host can start (R80, R82); `reserved` is any other
command word (R84); `reset` is an event (R260); the rest are internal operations and the auxiliary `toPattern`, which
have no encoding (R80). An operand typed integer is an `Int`; the pairs of `mac` are (weight[j], in[j]). -/
inductive Instr where
  | nop
  | init
  | run
  | reserved (word : Word)
  | valid (offset size blobLength : Word)
  | resolve (r : Region)
  | mac (bias : Code) (terms : List (Code × Code))
  | divt32 (acc : Int)
  | reluClamp (v : Int)
  | symClamp (v : Int)
  | dense1 (q : Code)
  | dense2 (l1 : List Code)
  | denseOut (l2 : List Code)
  | quantize (x : F32)
  | forward (q : Code)
  | dequantize (outQ : Code)
  | toPattern (y : F32)
  | reset
deriving DecidableEq, Repr

end Sys2Proof
end

