-- ==== Sys2Proof/WellFormed.lean ====
section
/-! DEFINITION. Which terms of `Instr` the spec's operand types admit. -/

namespace Sys2Proof

/-- A reserved command word: `op` = 3, or any of bits 31:2 set (R84). -/
abbrev isReservedWord (w : Word) : Bool := w.toNat % 4 = 3 || 4 ≤ w.toNat

/-- A hidden layer's output as an operand: 16 codes, each in 0 to 127 (R149, R150, R89: bit 7 always 0). -/
def isLayer (l : List Code) : Bool := l.length = 16 && l.all (fun c => decide (c.toNat ≤ 127))

/-- The operands are of the shape the operation's rule gives them. `mac`: `n` is 1 or 16 (R141). -/
def Instr.wellFormed : Instr → Bool
  | .reserved w => isReservedWord w
  | .mac _ terms => terms.length = 1 || terms.length = 16
  | .dense2 l1 => isLayer l1
  | .denseOut l2 => isLayer l2
  | .nop | .init | .run | .valid _ _ _ | .resolve _ | .divt32 _ | .reluClamp _ | .symClamp _ | .dense1 _
  | .quantize _ | .forward _ | .dequantize _ | .toPattern _ | .reset => true

/-- The instruction is well formed. -/
abbrev Instr.WellFormed (i : Instr) : Prop := i.wellFormed = true

end Sys2Proof
end

