-- ==== Sys2Proof/Decode.lean ====
section
/-! DEFINITION. The command word (30_encoding.md R81, R82, R84): decoder and encoder. -/

namespace Sys2Proof

/-- Field `op` of a command word, bits 1:0 (R81). -/
def cmdOp (w : Word) : BitVec 2 := w.extractLsb' 0 2

/-- Field `zero` of a command word, bits 31:2 (R81). -/
def cmdZero (w : Word) : BitVec 30 := w.extractLsb' 2 30

/-- The operation a command word spells (R82); every word that spells none is `reserved` (R84), and `exec` refuses that
by name. -/
def decode (w : Word) : Instr :=
  if cmdZero w = 0 then
    match (cmdOp w).toNat with
    | 0 => .nop
    | 1 => .init
    | 2 => .run
    | _ => .reserved w
  else .reserved w

/-- The command word of an operation: `{zero, op}` with the op of R82. An internal operation, TO_PATTERN and the RESET
event have no encoding (R80). -/
def encode : Instr → Option Word
  | .nop => some ((0 : BitVec 30) ++ (0 : BitVec 2))
  | .init => some ((0 : BitVec 30) ++ (1 : BitVec 2))
  | .run => some ((0 : BitVec 30) ++ (2 : BitVec 2))
  | .reserved w => if cmdZero w ≠ 0 ∨ cmdOp w = 3 then some w else none
  | .valid _ _ _ | .resolve _ | .mac _ _ | .divt32 _ | .reluClamp _ | .symClamp _ | .dense1 _ | .dense2 _
  | .denseOut _ | .quantize _ | .forward _ | .dequantize _ | .toPattern _ | .reset => none

/-- The command word whose low `nbits` bits are those of `w` and whose other bits are 0. The word is a register value
and has no byte order (R54). -/
def tableWord (nbits w : Nat) : Word := BitVec.ofNat 32 (w % 2 ^ nbits)

/-- What the decoder reads from a table row's bits; a command word has 32 bits, so a longer row is none. -/
def decodeTableWord (nbits w : Nat) : Option Instr :=
  if nbits ≤ 32 then some (decode (tableWord nbits w)) else none

end Sys2Proof
end

