-- ==== Sys2Proof/Config.lean ====
section
/-! DEFINITION. What the spec leaves to the build (parameters, R6) and what it leaves open (draws, R8): uninterpreted
constants, of which nothing can be proved. -/

namespace Sys2Proof

/-- The parameter `BLOB_LEN` (R25, D27: any u32), as the build of `State.reset` supplied it. Log entry 2. -/
opaque Config.blobLen : Word

/-- The parameter `REGION_OFFSET` (R24, D2: six arbitrary u32), by region index, as the build of `State.reset`
supplied it. Log entry 2. -/
opaque Config.regionOffset : Nat → Word

/-- `draw(int8)` number `n`: the code of a NaN operand of QUANTIZE (R184, D9). Log entry 4. -/
opaque Config.freeCode : Nat → Code

/-- `draw(u8)` number `n`: the pattern of a NaN operand of TO_PATTERN (R194, D21). Log entry 4. -/
opaque Config.freePattern : Nat → Byte

/-- Draw number `n` of a 32-bit register's contents: X and Y after a RESET event (R41, U12). Log entry 4. -/
opaque Config.freeWord : Nat → Word

end Sys2Proof
end

