-- ==== Sys2Proof/Machine/State.lean ====
section
/-! DEFINITION. The machine's state as plain data (10_state.md R20), its reset value (R40), and why a step can stop. -/

namespace Sys2Proof.Machine

/-- Register `STATE` (R21): three values; code 3 cannot be expressed (R85). -/
inductive EngineState where
  | uninitialized | partiallyResolved | ready
deriving DecidableEq, Repr

/-- A view register `V[r]` (R22): a `WeightView`. -/
inductive View where
  | unresolved
  | resolved (base len : Word)
deriving DecidableEq, Repr

/-- One value for each region, in index order (R9). -/
structure PerRegion (α : Type) where
  w1 : α
  b1 : α
  w2 : α
  b2 : α
  wout : α
  bout : α
deriving DecidableEq, Repr

/-- A record of `DIAG` (R31, R88): an `OutOfBounds` error or a duplicate INIT. -/
inductive DiagRecord where
  | oob (region : Region) (offset size blobLen : Word)
  | dupInit
deriving DecidableEq, Repr

/-- The blob's bytes: addresses strictly rising, no entry equal to what an unlisted address reads as. Log entry 1. -/
abbrev Memory := List Host.Cell

/-- What the host sends (R269, R272). A write of register 15 starts a command (R28). -/
inductive HostEvent where
  | reset
  | writeReg (number : Nat) (value : Word)
  | readReg (number : Nat)
  | readDiag
  | pattern (y : F32)
deriving DecidableEq, Repr

/-- What an operation gives back to whoever started it: a status read, a DIAG read, TO_PATTERN, or an internal operation
run by itself. Log entry 7. -/
inductive Reply where
  | flag (b : Bool)
  | number (z : Int)
  | code (c : Code)
  | codes (l : List Code)
  | float (bits : F32)
  | pattern (p : Byte)
  | word (w : Word)
  | records (l : List DiagRecord)
deriving DecidableEq, Repr

/-- The state. `state`, `views` and `diag` are the architectural state (R20); `x` and `y` are registers 16 and 17 (R28);
`blobLen`, `offsets` and `mem` are the build's constant parameters (R24, R25), which no step changes; `events`, `reply`
and `draws` are the model's own (log entries 6, 7, 4). -/
structure State where
  state : EngineState
  views : PerRegion View
  diag : List DiagRecord
  x : F32
  y : F32
  blobLen : Word
  offsets : PerRegion Word
  mem : Memory
  events : List HostEvent
  reply : Option Reply
  draws : Nat
deriving DecidableEq, Repr

/-- Why the machine faults. Each is a broken precondition of a blob access, which no command can reach from a state that
meets the invariant; stopping there is safe. -/
inductive Fault where
  /-- `MemRead(a, 1)` with `a` at or above `BLOB_LEN` (R52, U10). Raised by the blob read. Safe. -/
  | blobReadOutOfBounds (address : Nat)
  /-- `Elem(r, k)` with `V[r].res = 0` (R53). Raised by an internal operation run by itself. Safe. -/
  | readThroughUnresolvedView (r : Region)
  /-- `Elem(r, k)` with `k` not below `V[r].len` (R53). Raised by an internal operation run by itself. Safe. -/
  | elementOutsideView (r : Region) (k : Nat)
deriving DecidableEq, Repr

/-- Why the model declines to give a step. -/
inductive Refusal where
  /-- An instruction without a meaning yet, raised by a dispatch arm. Safe. No arm raises it now. -/
  | notModelled (mnemonic : String)
  /-- A reserved command word (R84, D20). Raised by the RESERVED arm. Safe. -/
  | reservedCommandWord (word : Word)
  /-- A layer operand of DENSE2 or DENSEOUT that is not 16 codes (R149, R150). Raised by those meanings. Safe. -/
  | notSixteenCodes (count : Nat)
  /-- The host reads the write-only register 15 (R28). Raised by the register read. Safe. -/
  | readOfWriteOnlyRegister (number : Nat)
  /-- The host writes a read-only register (R28). Raised by the register write. Safe. -/
  | writeToReadOnlyRegister (number : Nat)
  /-- The host names a register above 17, which the map of R28 does not have. Raised by the register access. Safe. -/
  | noSuchRegister (number : Nat)
deriving DecidableEq, Repr

/-- The machine right after reset (R40, R41): `STATE` Uninitialized, all views Unresolved, `DIAG` empty. `x` and `y` are
unspecified by the spec: 0 is log entry 3. The build's parameters are uninterpreted (log entry 2) and the blob lists
nothing (log entry 1). Nothing is pending from the host (log entry 6). -/
def State.reset : State where
  state := .uninitialized
  views := ⟨.unresolved, .unresolved, .unresolved, .unresolved, .unresolved, .unresolved⟩
  diag := []
  x := 0
  y := 0
  blobLen := Config.blobLen
  offsets := ⟨Config.regionOffset 0, Config.regionOffset 1, Config.regionOffset 2, Config.regionOffset 3,
    Config.regionOffset 4, Config.regionOffset 5⟩
  mem := []
  events := []
  reply := none
  draws := 0

end Sys2Proof.Machine
end

