-- ==== Sys2Proof/Machine/Ops.lean ====
section
/-! DEFINITION. The named operations over the state: regions and their table, byte memory, one setter per field, taking
the one error of the block, and draws. -/

namespace Sys2Proof.Machine

/-- Shorthand for the outcome of a step. -/
abbrev StepOutcome := Host.Outcome State Fault Refusal

/-! ### Regions (R9, R24) -/

/-- The regions in ascending index, which is the order INIT resolves them in (R113, D3). -/
def regionsInOrder : List Region := [.w1, .b1, .w2, .b2, .wout, .bout]

/-- The index of a region (R9), 3 bits (R87). -/
def regionIndex : Region → Nat
  | .w1 => 0
  | .b1 => 1
  | .w2 => 2
  | .b2 => 3
  | .wout => 4
  | .bout => 5

/-- `REGION_SIZE[r]`, in bytes, which is in elements (R24). -/
def regionSize : Region → Word
  | .w1 => 16
  | .b1 => 16
  | .w2 => 256
  | .b2 => 16
  | .wout => 16
  | .bout => 1

/-- The value of region `r`. -/
def PerRegion.get {α : Type} (p : PerRegion α) : Region → α
  | .w1 => p.w1
  | .b1 => p.b1
  | .w2 => p.w2
  | .b2 => p.b2
  | .wout => p.wout
  | .bout => p.bout

/-- `p` with the value of region `r` replaced. -/
def PerRegion.set {α : Type} (p : PerRegion α) (r : Region) (a : α) : PerRegion α :=
  match r with
  | .w1 => { p with w1 := a }
  | .b1 => { p with b1 := a }
  | .w2 => { p with w2 := a }
  | .b2 => { p with b2 := a }
  | .wout => { p with wout := a }
  | .bout => { p with bout := a }

/-- The same value for every region. -/
def PerRegion.all {α : Type} (a : α) : PerRegion α := ⟨a, a, a, a, a, a⟩

/-- `REGION_OFFSET[r]` (R24). -/
def State.offset (s : State) (r : Region) : Word := s.offsets.get r

/-- `V[r]` (R8, R22). -/
def State.view (s : State) (r : Region) : View := s.views.get r

/-- `V[r].res` (R22). -/
def View.isResolved : View → Bool
  | .unresolved => false
  | .resolved _ _ => true

/-! ### Byte memory (R50, R52). The block only reads; the write is the build's, which supplies the blob (R25). -/

/-- What an address that is not listed reads as. DESIGN CHOICE, log entry 1. -/
def Memory.unlisted : Byte := 0

/-- The byte at an address. -/
def Memory.read : Memory → Nat → Byte
  | [], _ => Memory.unlisted
  | (a, b) :: rest, k => if a = k then b else Memory.read rest k

/-- The memory with one byte replaced; writing what an unlisted address reads as removes the entry. -/
def Memory.write : Memory → Nat → Byte → Memory
  | [], k, v => if v = Memory.unlisted then [] else [(k, v)]
  | (a, b) :: rest, k, v =>
    if k < a then (if v = Memory.unlisted then (a, b) :: rest else (k, v) :: (a, b) :: rest)
    else if k = a then (if v = Memory.unlisted then rest else (k, v) :: rest)
    else (a, b) :: Memory.write rest k v

/-- Bytes written one after another from an address upward: how a build supplies a blob. -/
def Memory.load (m : Memory) (start : Nat) : List Byte → Memory
  | [] => m
  | b :: rest => Memory.load (Memory.write m start b) (start + 1) rest

/-- Addresses strictly rising from `low`, and no entry that an unlisted address would read as. -/
def Memory.wfFrom (low : Nat) : Memory → Bool
  | [] => true
  | (a, b) :: rest => decide (low ≤ a) && decide (b ≠ Memory.unlisted) && Memory.wfFrom (a + 1) rest

/-- The canonical form. -/
def Memory.wf (m : Memory) : Bool := Memory.wfFrom 0 m

/-- `MemRead(addr, 1)` (R52): `BLOB[addr]`, defined only below `BLOB_LEN`. -/
def memRead (s : State) (addr : Nat) : Except Fault Byte :=
  if addr < s.blobLen.toNat then .ok (Memory.read s.mem addr) else .error (.blobReadOutOfBounds addr)

/-! ### `int8` (R7, R8, R90) -/

/-- `sext_8(v)` (R8). -/
def sext8 (b : Byte) : Int := if b.toNat < 128 then (b.toNat : Int) else (b.toNat : Int) - 256

/-- The pattern of an `int8` value (R90): value `v` is stored as `v mod 256`. -/
def toCode (v : Int) : Code := BitVec.ofNat 8 (v % 256).toNat

/-! ### Setters: one per field that a step writes -/

/-- `STATE <- v` (R8, R21). -/
def State.setState (s : State) (v : EngineState) : State := { s with state := v }

/-- `V[r] <- v` (R8, R22). -/
def State.setView (s : State) (r : Region) (v : View) : State := { s with views := s.views.set r v }

/-- Appends a record to `DIAG` (R8 `log`, R31). -/
def State.log (s : State) (d : DiagRecord) : State := { s with diag := s.diag ++ [d] }

/-- The host's write of register X (R28). -/
def State.setX (s : State) (v : F32) : State := { s with x := v }

/-- The result of a RUN placed in register Y (R28, R82). -/
def State.setY (s : State) (v : F32) : State := { s with y := v }

/-- The host's pending events replaced. -/
def State.setEvents (s : State) (l : List HostEvent) : State := { s with events := l }

/-- What an operation run by itself, or a read, gives back. Log entry 7. -/
def State.answer (s : State) (r : Reply) : State := { s with reply := some r }

/-- `n` draws taken (R8 `draw`: two draws need not agree). Log entry 4. -/
def State.takeDraws (s : State) (n : Nat) : State := { s with draws := s.draws + n }

/-! ### The one error of the block (R220 to R222) and loops -/

/-- `raise OutOfBounds(region, offset, size, blob_len)` (R112, R221, R222): appends the `OOB` record and nothing more;
the operation goes on. There is no trap entry (R229) and so no return from one (R230). -/
def State.raiseOutOfBounds (s : State) (r : Region) : State :=
  s.log (.oob r (s.offset r) (regionSize r) s.blobLen)

/-- `f start, f (start + 1), ...`, `count` of them, or the first fault. -/
def collect {α : Type} (f : Nat → Except Fault α) : (start count : Nat) → Except Fault (List α)
  | _, 0 => .ok []
  | start, count + 1 =>
    match f start with
    | .error e => .error e
    | .ok a =>
      match collect f (start + 1) count with
      | .error e => .error e
      | .ok rest => .ok (a :: rest)

/-- The outcome of an operation that answers a value and writes nothing else. -/
def answering (s : State) (r : Except Fault Reply) : StepOutcome :=
  match r with
  | .ok v => .next (s.answer v)
  | .error e => .fault e

end Sys2Proof.Machine
end

