-- ==== Sys2Proof/Machine/Flags.lean ====
section
/-! DEFINITION. The block has no condition codes and no arithmetic flags (10_state.md R27). Its flag-like state is
`STATE` and the six bits `V[r].res`; this file holds their codes (30_encoding.md R85 to R88) and what is computed from
them. -/

namespace Sys2Proof.Machine

/-- The 2-bit code of `STATE` (R85). -/
def stateCode : EngineState → BitVec 2
  | .uninitialized => 0
  | .partiallyResolved => 1
  | .ready => 2

/-- INIT's final test: all six `V[r].res` = 1 (R114). -/
def allResolved (s : State) : Bool := regionsInOrder.all (fun r => (s.view r).isResolved)

/-- One `res` bit as a number. -/
def resBit (s : State) (r : Region) : Nat := if (s.view r).isResolved then 1 else 0

/-- `res[5:0]` of register VALID: bit `r` is `V[r].res` (R28). -/
def resBits (s : State) : BitVec 6 :=
  BitVec.ofNat 6 (resBit s .w1 + 2 * resBit s .b1 + 4 * resBit s .w2 + 8 * resBit s .b2
    + 16 * resBit s .wout + 32 * resBit s .bout)

/-- A view register as 65 bits `{res, base, len}` (R86); an Unresolved view reads 0 in all fields. -/
def viewBits : View → BitVec 65
  | .unresolved => 0
  | .resolved base len => (1 : BitVec 1) ++ base ++ len

/-- A `DIAG` record as 128 bits (R88): `{blob_len, size, offset, reserved, region, kind}`. `kind` 1 is the cause code of
OutOfBounds (R220). -/
def recordBits : DiagRecord → BitVec 128
  | .oob r offset size len =>
    len ++ size ++ offset ++ (0 : BitVec 27) ++ BitVec.ofNat 3 (regionIndex r) ++ (1 : BitVec 2)
  | .dupInit => (2 : BitVec 128)

end Sys2Proof.Machine
end

