-- ==== Sys2Proof/Machine/Operands.lean ====
section
/-! DEFINITION. The operand forms: an element of a resolved view (20_memory.md R53), and the numbered registers of the
host's view (10_state.md R28). -/

namespace Sys2Proof.Machine

/-- `Elem(r, k)` as its byte (R53): the byte at `V[r].base + k`. The preconditions `V[r].res = 1` and `k < V[r].len` are
not tested by the hardware (R62); the model faults where they fail. -/
def elem (s : State) (r : Region) (k : Nat) : Except Fault Code :=
  match s.view r with
  | .unresolved => .error (.readThroughUnresolvedView r)
  | .resolved base len =>
    if k < len.toNat then memRead s (base.toNat + k) else .error (.elementOutsideView r k)

/-- `[Elem(r, start), ..., Elem(r, start + count - 1)]`. -/
def elems (s : State) (r : Region) (start count : Nat) : Except Fault (List Code) :=
  collect (elem s r) start count

/-- A read of a numbered register (R28). Registers 0 to 14 and 17 have no side effect and X is read-write; 15 is
write-only. -/
def readRegister (s : State) : Nat → Except Refusal Word
  | 0 => .ok ((stateCode s.state).setWidth 32)
  | 1 => .ok ((resBits s).setWidth 32)
  | 2 => .ok s.blobLen
  | 3 => .ok (s.offset .w1)
  | 4 => .ok (regionSize .w1)
  | 5 => .ok (s.offset .b1)
  | 6 => .ok (regionSize .b1)
  | 7 => .ok (s.offset .w2)
  | 8 => .ok (regionSize .w2)
  | 9 => .ok (s.offset .b2)
  | 10 => .ok (regionSize .b2)
  | 11 => .ok (s.offset .wout)
  | 12 => .ok (regionSize .wout)
  | 13 => .ok (s.offset .bout)
  | 14 => .ok (regionSize .bout)
  | 15 => .error (.readOfWriteOnlyRegister 15)
  | 16 => .ok s.x
  | 17 => .ok s.y
  | n + 18 => .error (.noSuchRegister (n + 18))

/-- The register number whose write starts a command (R28, R81). -/
def cmdRegister : Nat := 15

/-- A write of a numbered register other than CMD (R28): X is the one that may be written. -/
def writeRegister (s : State) (number : Nat) (value : Word) : StepOutcome :=
  if number = 16 then .next (s.setX value)
  else if number < 18 then .refused (.writeToReadOnlyRegister number)
  else .refused (.noSuchRegister number)

end Sys2Proof.Machine
end

