-- ==== Sys2Proof/Machine/Bounds.lean ====
section
/-! DEFINITION. blob_bounds_checker and weight_resolver: VALID, RESOLVE and INIT (40_bounds_resolver.md). -/

namespace Sys2Proof.Machine

/-- `VALID(offset, size, blob_length)` (R110): a 33-bit sum, so that an overflow of the 32-bit addition shows. -/
def valid (offset size blobLength : Word) : Bool :=
  let sum : BitVec 33 := offset.setWidth 33 + size.setWidth 33
  if sum.getLsbD 32 then false else decide ((sum.extractLsb' 0 32).toNat ≤ blobLength.toNat)

/-- `RESOLVE(r)` (R112). -/
def resolve (s : State) (r : Region) : State :=
  if valid (s.offset r) (regionSize r) s.blobLen then s.setView r (.resolved (s.offset r) (regionSize r))
  else (s.setView r .unresolved).raiseOutOfBounds r

/-- The six RESOLVE steps of INIT, in ascending index, all attempted (R113). -/
def resolveAll (s : State) : State := regionsInOrder.foldl resolve s

/-- INIT from `Uninitialized` (R114). -/
def initialise (s : State) : State :=
  let t := resolveAll s
  t.setState (if allResolved t then .ready else .partiallyResolved)

/-- VALID run by itself. -/
def execValid (offset size blobLength : Word) (s : State) : StepOutcome :=
  .next (s.answer (.flag (valid offset size blobLength)))

/-- RESOLVE run by itself. -/
def execResolve (r : Region) (s : State) : StepOutcome := .next (resolve s r)

/-- INIT (R114); from any other `STATE` a logged no-op (R115). -/
def execInit (s : State) : StepOutcome :=
  .next (if s.state = .uninitialized then initialise s else s.log .dupInit)

end Sys2Proof.Machine
end

