-- ==== Sys2Proof/Machine/Control.lean ====
section
/-! DEFINITION. The RESET event (70_reset_and_hazards.md R260) and the reserved command words (30_encoding.md R84). -/

namespace Sys2Proof.Machine

/-- RESET (R260, R40, R41, R261): the architectural state at its reset values; the build's parameters as they were; X and
Y unspecified, each a draw (U12). The host's pending events and what it was last given back are not the block's. -/
def execReset (s : State) : StepOutcome :=
  .next ({ s with
    state := .uninitialized
    views := PerRegion.all .unresolved
    diag := []
    x := Config.freeWord s.draws
    y := Config.freeWord (s.draws + 1) }.takeDraws 2)

/-- A reserved command word: nothing says what the hardware does with it, and the model refuses it (R84, D20). -/
def execReserved (word : Word) (_s : State) : StepOutcome := .refused (.reservedCommandWord word)

end Sys2Proof.Machine
end

