-- ==== Sys2Proof/Machine/Dense.lean ====
section
/-! DEFINITION. quantized_dense_layer: the unit and the three stages (41_dense_layer.md). -/

namespace Sys2Proof.Machine

/-- `MAC(bias, weight, in)` (R141), exact; `terms` are the pairs (weight[j], in[j]). -/
def mac (bias : Code) (terms : List (Code × Code)) : Int :=
  terms.foldl (fun acc t => acc + sext8 t.1 * sext8 t.2) (sext8 bias * 8)

/-- `DIVT32(acc)` (R145): toward zero. -/
def divt32 (acc : Int) : Int := if 0 ≤ acc then acc / 32 else -(-acc / 32)

/-- `RELU_CLAMP(v)` (R146). -/
def reluClamp (v : Int) : Int := if v < 0 then 0 else if 127 < v then 127 else v

/-- `SYM_CLAMP(v)` (R147). -/
def symClamp (v : Int) : Int := if v < -128 then -128 else if 127 < v then 127 else v

/-- A hidden unit (R140): multiply and accumulate, divide, clamp. -/
def hiddenUnit (bias : Code) (terms : List (Code × Code)) : Code := toCode (reluClamp (divt32 (mac bias terms)))

/-- The output unit (R140). -/
def outputUnit (bias : Code) (terms : List (Code × Code)) : Code := toCode (symClamp (divt32 (mac bias terms)))

/-- Unit `i` of layer 1 (R148): `b1[i]`, `w1[i]` and `q`. -/
def unit1 (s : State) (q : Code) (i : Nat) : Except Fault Code :=
  match elem s .b1 i, elem s .w1 i with
  | .ok b, .ok w => .ok (hiddenUnit b [(w, q)])
  | .error e, _ => .error e
  | _, .error e => .error e

/-- `DENSE1(q)` (R148). -/
def dense1 (s : State) (q : Code) : Except Fault (List Code) := collect (unit1 s q) 0 16

/-- Unit `i` of layer 2 (R149): `b2[i]`, the row `w2[16 i .. 16 i + 15]` and all of `l1`. -/
def unit2 (s : State) (l1 : List Code) (i : Nat) : Except Fault Code :=
  match elem s .b2 i, elems s .w2 (16 * i) 16 with
  | .ok b, .ok row => .ok (hiddenUnit b (row.zip l1))
  | .error e, _ => .error e
  | _, .error e => .error e

/-- `DENSE2(l1)` (R149). -/
def dense2 (s : State) (l1 : List Code) : Except Fault (List Code) := collect (unit2 s l1) 0 16

/-- `DENSEOUT(l2)` (R150). -/
def denseOut (s : State) (l2 : List Code) : Except Fault Code :=
  match elem s .bout 0, elems s .wout 0 16 with
  | .ok b, .ok row => .ok (outputUnit b (row.zip l2))
  | .error e, _ => .error e
  | _, .error e => .error e

/-- MAC run by itself. -/
def execMac (bias : Code) (terms : List (Code × Code)) (s : State) : StepOutcome :=
  .next (s.answer (.number (mac bias terms)))

/-- DIVT32 run by itself. -/
def execDivt32 (acc : Int) (s : State) : StepOutcome := .next (s.answer (.number (divt32 acc)))

/-- RELU_CLAMP run by itself. -/
def execReluClamp (v : Int) (s : State) : StepOutcome := .next (s.answer (.code (toCode (reluClamp v))))

/-- SYM_CLAMP run by itself. -/
def execSymClamp (v : Int) (s : State) : StepOutcome := .next (s.answer (.code (toCode (symClamp v))))

/-- DENSE1 run by itself. -/
def execDense1 (q : Code) (s : State) : StepOutcome := answering s ((dense1 s q).map .codes)

/-- DENSE2 run by itself; its operand is 16 codes (R149). -/
def execDense2 (l1 : List Code) (s : State) : StepOutcome :=
  if l1.length = 16 then answering s ((dense2 s l1).map .codes) else .refused (.notSixteenCodes l1.length)

/-- DENSEOUT run by itself; its operand is 16 codes (R150). -/
def execDenseOut (l2 : List Code) (s : State) : StepOutcome :=
  if l2.length = 16 then answering s ((denseOut s l2).map .code) else .refused (.notSixteenCodes l2.length)

end Sys2Proof.Machine
end

