-- ==== Sys2Proof/Machine/Float.lean ====
section
/-! DEFINITION. IEEE 754 binary32 with round to nearest, ties to even (00_scope.md R6 `FLOAT`, 30_encoding.md R83, D7).
A finite value is held unpacked as a sign and a magnitude counted in units of 2^-149, the smallest subnormal: every
binary32 magnitude is a whole number of those units. -/

namespace Sys2Proof.Machine

/-- An unpacked binary32 value: `fin neg mag` is (-1)^neg * mag * 2^-149, so both zeros are kept apart. -/
inductive Fp where
  | nan
  | inf (neg : Bool)
  | fin (neg : Bool) (mag : Nat)
deriving DecidableEq, Repr

/-- The units in 1.0. -/
def Fp.unit : Nat := 2 ^ 149

/-- The least magnitude that is not finite: 2^128, in units. -/
def Fp.limit : Nat := 2 ^ 149 * 2 ^ 128

/-- Unpacking a pattern (R83): bit 31 sign, bits 30:23 exponent biased by 127, bits 22:0 fraction. -/
def Fp.decode (b : F32) : Fp :=
  let neg := decide (2 ^ 31 ≤ b.toNat)
  let e := b.toNat / 2 ^ 23 % 256
  let f := b.toNat % 2 ^ 23
  if e = 255 then (if f = 0 then .inf neg else .nan)
  else if e = 0 then .fin neg f
  else .fin neg ((2 ^ 23 + f) * 2 ^ (e - 1))

/-- The low 31 bits of a representable magnitude: with `k` the places the 24-bit significand is shifted up by, the
exponent field and the fraction together are `k * 2^23 + mag / 2^k`, for subnormals and normals alike. -/
def Fp.magBits (mag : Nat) : Nat :=
  let k := Nat.log2 mag - 23
  k * 2 ^ 23 + mag / 2 ^ k

/-- Packing. A NaN packs to the quiet pattern 0x7FC00000; no operation of the block packs one (R192; log entry 19). -/
def Fp.encode : Fp → F32
  | .nan => 0x7FC00000
  | .inf neg => BitVec.ofNat 32 ((if neg then 2 ^ 31 else 0) + 255 * 2 ^ 23)
  | .fin neg mag => BitVec.ofNat 32 ((if neg then 2 ^ 31 else 0) + Fp.magBits mag)

/-- The integer nearest to `num / den`, a tie going to the even one. -/
def roundHalfEven (num den : Nat) : Nat :=
  let q := num / den
  let r := num % den
  if 2 * r < den then q else if den < 2 * r then q + 1 else q + q % 2

/-- The magnitude of at most 24 significant bits nearest to `num / den` units, a tie going to the even significand. -/
def roundMag (num den : Nat) : Nat :=
  let k := Nat.log2 (num / den) - 23
  roundHalfEven num (den * 2 ^ k) * 2 ^ k

/-- The binary32 value nearest to `num / den` units with the given sign; too large a magnitude is an infinity. -/
def Fp.round (neg : Bool) (num den : Nat) : Fp :=
  let m := roundMag num den
  if m < Fp.limit then .fin neg m else .inf neg

/-- A finite value as a signed count of units. -/
def signedMag (neg : Bool) (mag : Nat) : Int := if neg then -(mag : Int) else (mag : Int)

/-- The binary32 value of an integer. -/
def Fp.ofInt (z : Int) : Fp := Fp.round (decide (z < 0)) (z.natAbs * Fp.unit) 1

/-- The comparison `a < b`: false when an operand is a NaN; the zeros compare equal (G2). -/
def Fp.lt : Fp → Fp → Bool
  | .nan, _ => false
  | _, .nan => false
  | .inf na, .inf nb => na && !nb
  | .inf na, .fin _ _ => na
  | .fin _ _, .inf nb => !nb
  | .fin na ma, .fin nb mb => decide (signedMag na ma < signedMag nb mb)

/-- One rounded multiplication. -/
def Fp.mul : Fp → Fp → Fp
  | .nan, _ => .nan
  | _, .nan => .nan
  | .inf na, .inf nb => .inf (na ^^ nb)
  | .inf na, .fin nb mb => if mb = 0 then .nan else .inf (na ^^ nb)
  | .fin na ma, .inf nb => if ma = 0 then .nan else .inf (na ^^ nb)
  | .fin na ma, .fin nb mb => Fp.round (na ^^ nb) (ma * mb) Fp.unit

/-- One rounded division. -/
def Fp.div : Fp → Fp → Fp
  | .nan, _ => .nan
  | _, .nan => .nan
  | .inf _, .inf _ => .nan
  | .inf na, .fin nb _ => .inf (na ^^ nb)
  | .fin na _, .inf nb => .fin (na ^^ nb) 0
  | .fin na ma, .fin nb mb =>
    if mb = 0 then (if ma = 0 then .nan else .inf (na ^^ nb)) else Fp.round (na ^^ nb) (ma * Fp.unit) mb

/-- One rounded addition; an exact zero sum is -0.0 when both operands are -0.0 and +0.0 otherwise. -/
def Fp.add : Fp → Fp → Fp
  | .nan, _ => .nan
  | _, .nan => .nan
  | .inf na, .inf nb => if na = nb then .inf na else .nan
  | .inf na, .fin _ _ => .inf na
  | .fin _ _, .inf nb => .inf nb
  | .fin na ma, .fin nb mb =>
    let z := signedMag na ma + signedMag nb mb
    if z = 0 then .fin (na && nb) 0 else Fp.round (decide (z < 0)) z.natAbs 1

/-- The value with its sign turned. -/
def Fp.neg : Fp → Fp
  | .nan => .nan
  | .inf n => .inf (!n)
  | .fin n m => .fin (!n) m

/-- One rounded subtraction. -/
def Fp.sub (a b : Fp) : Fp := Fp.add a (Fp.neg b)

/-- The form of the float clamps (R180, D10): compare, then replace; a NaN passes through. -/
def Fp.clamp (lo hi v : Fp) : Fp :=
  let v1 := if Fp.lt v lo then lo else v
  if Fp.lt hi v1 then hi else v1

/-- `trunc(t)` (R8), toward zero; none for a NaN or an infinity. -/
def Fp.trunc : Fp → Option Int
  | .nan => none
  | .inf _ => none
  | .fin neg mag => some (signedMag neg (mag / Fp.unit))

/-- `floor(v + 1/2)` on the exact value of `v` (R194); none for a NaN or an infinity. -/
def Fp.roundNearest : Fp → Option Int
  | .nan => none
  | .inf _ => none
  | .fin neg mag => some ((2 * signedMag neg mag + (Fp.unit : Int)) / (2 * (Fp.unit : Int)))

/-- `f b`, with `b` examined first (`onPattern_eq`): while `b` is a variable, nothing unfolds the computation of `f`, and a
proof that compares two states never runs into it. -/
def onPattern {w : Nat} {α : Type} (b : BitVec w) (f : BitVec w → α) : α :=
  match b.toNat with
  | 0 => f b
  | _ + 1 => f b

/-- Whether a pattern is a NaN (R83). -/
def isNaN (b : F32) : Bool := Fp.decode b = .nan

end Sys2Proof.Machine
end

