-- ==== Sys2Proof/Machine/Pipeline.lean ====
section
/-! DEFINITION. quantized_inference_pipeline: quantizer, forward pass, dequantizer, RUN, the pattern mapper and NOP
(42_pipeline.md). -/

namespace Sys2Proof.Machine

/-- `TWO_PI` = 0x40C90FDB (R181, D8). -/
def twoPi : F32 := 0x40C90FDB

/-- `QUANTIZE32(x)` up to and including the product with 255 (R181): `u`. Each step is one rounded operation. -/
def quantizeU (x : F32) : Fp :=
  let n := Fp.clamp (Fp.ofInt 0) (Fp.ofInt 1) (Fp.div (Fp.decode x) (Fp.decode twoPi))
  Fp.mul n (Fp.ofInt 255)

/-- `QUANTIZE32(x)` up to and including the subtraction (R181): `t`. -/
def quantizeT (x : F32) : Fp := Fp.sub (quantizeU x) (Fp.ofInt 128)

/-- The last clamp of QUANTIZE, to the signed 8-bit range (R180), which never changes `q` (R185). -/
def quantizeClamp (q : Int) : Int := if q < -128 then -128 else if 127 < q then 127 else q

/-- `QUANTIZE32(x)` (R181); none where the code is a draw, that is for a NaN (R184). -/
def quantize32 (x : F32) : Option Code :=
  onPattern x (fun b => (Fp.trunc (quantizeT b)).map (fun q => toCode (quantizeClamp q)))

/-- QUANTIZE with its draw (R184, D9): the code, and the state after the draws taken. -/
def quantize (x : F32) (s : State) : Code × State :=
  match quantize32 x with
  | some q => (q, s)
  | none => (Config.freeCode s.draws, s.takeDraws 1)

/-- `FORWARD(q)` (R186). -/
def forward (s : State) (q : Code) : Except Fault Code :=
  match dense1 s q with
  | .error e => .error e
  | .ok l1 =>
    match dense2 s l1 with
    | .error e => .error e
    | .ok l2 => denseOut s l2

/-- `DEQUANTIZE(out_q)` (R187). -/
def dequantize (outQ : Code) : F32 :=
  onPattern outQ (fun c =>
    Fp.encode (Fp.clamp (Fp.ofInt (-1)) (Fp.ofInt 1) (Fp.mul (Fp.ofInt (sext8 c)) (Fp.decode 0x3C000000))))

/-- `TO_PATTERN(y)` (R193, R194); none where the pattern is a draw, that is for a NaN. DESIGN CHOICE, log entry 25: R194 says
that 255 is reached only by y ≥ 1.0, but its formula gives 255 a little below 1.0 too (0x3F7F0000); the formula is followed. -/
def toPattern (y : F32) : Option Byte :=
  onPattern y (fun b =>
    let norm := Fp.clamp (Fp.ofInt 0) (Fp.ofInt 1) (Fp.div (Fp.add (Fp.decode b) (Fp.ofInt 1)) (Fp.ofInt 2))
    (Fp.roundNearest (Fp.mul norm (Fp.ofInt 255))).map (fun v => BitVec.ofInt 8 v))

/-- NOP (R195). -/
def execNop (s : State) : StepOutcome := .next s

/-- QUANTIZE run by itself. -/
def execQuantize (x : F32) (s : State) : StepOutcome :=
  .next ((quantize x s).2.answer (.code (quantize x s).1))

/-- FORWARD run by itself. -/
def execForward (q : Code) (s : State) : StepOutcome := answering s ((forward s q).map .code)

/-- DEQUANTIZE run by itself. -/
def execDequantize (outQ : Code) (s : State) : StepOutcome := .next (s.answer (.float (dequantize outQ)))

/-- RUN in `Ready` (R189): the five steps, the result placed in register Y. -/
def runPipeline (s : State) : StepOutcome :=
  match forward s (quantize s.x s).1 with
  | .error e => .fault e
  | .ok outQ => .next ((quantize s.x s).2.setY (dequantize outQ))

/-- RUN (R189). Unless `Ready`, +0.0 with no arithmetic, no draw and no blob read (R190). -/
def execRun (s : State) : StepOutcome :=
  if s.state = .ready then runPipeline s else .next (s.setY 0)

/-- TO_PATTERN (R193): a pure function of its operand; a NaN gives a draw (R194). -/
def execToPattern (y : F32) (s : State) : StepOutcome :=
  match toPattern y with
  | some p => .next (s.answer (.pattern p))
  | none => .next ((s.takeDraws 1).answer (.pattern (Config.freePattern s.draws)))

end Sys2Proof.Machine
end

