-- ==== Sys2Proof/Machine/Dispatch.lean ====
section
/-! DEFINITION. One arm per operation of spec/opcode_table.json. -/

namespace Sys2Proof.Machine

def exec (i : Instr) (s : State) : Host.Outcome State Fault Refusal :=
  match i with
  | .nop => Sys2Proof.Machine.execNop s
  | .init => Sys2Proof.Machine.execInit s
  | .run => Sys2Proof.Machine.execRun s
  | .reserved word => Sys2Proof.Machine.execReserved word s
  | .valid offset size blobLength => Sys2Proof.Machine.execValid offset size blobLength s
  | .resolve r => Sys2Proof.Machine.execResolve r s
  | .mac bias terms => Sys2Proof.Machine.execMac bias terms s
  | .divt32 acc => Sys2Proof.Machine.execDivt32 acc s
  | .reluClamp v => Sys2Proof.Machine.execReluClamp v s
  | .symClamp v => Sys2Proof.Machine.execSymClamp v s
  | .dense1 q => Sys2Proof.Machine.execDense1 q s
  | .dense2 l1 => Sys2Proof.Machine.execDense2 l1 s
  | .denseOut l2 => Sys2Proof.Machine.execDenseOut l2 s
  | .quantize x => Sys2Proof.Machine.execQuantize x s
  | .forward q => Sys2Proof.Machine.execForward q s
  | .dequantize outQ => Sys2Proof.Machine.execDequantize outQ s
  | .toPattern y => Sys2Proof.Machine.execToPattern y s
  | .reset => Sys2Proof.Machine.execReset s

end Sys2Proof.Machine
end

