-- ==== Sys2Proof/Machine/HostPort.lean ====
section
/-! DEFINITION. What the block does with one event from the host (10_state.md R28, 70_reset_and_hazards.md R269, R272). -/

namespace Sys2Proof.Machine

/-- The outcome of a register read: the value is given back and nothing else changes (R28, R272). -/
def serveRead (number : Nat) (s : State) : StepOutcome :=
  match readRegister s number with
  | .ok w => .next (s.answer (.word w))
  | .error e => .refused e

/-- A register write: register 15 starts the command its word spells (R28, R81). -/
def serveWrite (number : Nat) (value : Word) (s : State) : StepOutcome :=
  if number = cmdRegister then exec (decode value) s else writeRegister s number value

/-- One event of the host. -/
def serve (e : HostEvent) (s : State) : StepOutcome :=
  match e with
  | .reset => exec .reset s
  | .writeReg number value => serveWrite number value s
  | .readReg number => serveRead number s
  | .readDiag => .next (s.answer (.records s.diag))
  | .pattern y => exec (.toPattern y) s

/-- The oldest pending event is taken and served; with none pending the block is idle and loses no state (R237). -/
def serveOldest (s : State) : StepOutcome :=
  match s.events with
  | [] => .next s
  | e :: rest => serve e (s.setEvents rest)

/-- The host's next event made a write of `word` to CMD. -/
def placeCommand (s : State) (word : Word) : State := s.setEvents (.writeReg cmdRegister word :: s.events)

end Sys2Proof.Machine
end

