-- ==== Sys2Proof/Machine/Step.lean ====
section
/-! DEFINITION. One step: the block serves the host's oldest pending event (70_reset_and_hazards.md R266, R269; there is
no program counter, 10_state.md R26). -/

namespace Sys2Proof.Machine

/-- One step of the machine. -/
def step (s : State) : Host.Outcome State Fault Refusal := serveOldest s

/-- `s` with a command word placed where the next step takes it: as the host's next write of CMD. -/
def State.withFetchWord (s : State) (nbits w : Nat) : State := placeCommand s (tableWord nbits w)

end Sys2Proof.Machine
end

