-- ==== Sys2Proof/Safety.lean ====
section
/-! DEFINITION. What the spec says of every reachable state (10_state.md R23, R34; 20_memory.md R61), as one decidable
invariant, and what a run observes. -/

namespace Sys2Proof.Machine

/-- `END[r]` = `REGION_OFFSET[r] + REGION_SIZE[r]`, a mathematical integer (R58). -/
def State.regionEnd (s : State) (r : Region) : Nat := (s.offset r).toNat + (regionSize r).toNat

/-- The blob is in canonical form and lists no address at or above `BLOB_LEN` (R25). -/
def State.blobOk (s : State) : Bool :=
  Memory.wf s.mem && s.mem.all (fun c => decide (c.1 < s.blobLen.toNat))

/-- The view invariant for one region (R23). -/
def State.viewOk (s : State) (r : Region) : Bool :=
  match s.view r with
  | .unresolved => true
  | .resolved base len => decide (base = s.offset r) && decide (len = regionSize r)
      && decide (base.toNat + len.toNat ≤ s.blobLen.toNat)

/-- `V[r].res` agrees with the bounds check (R34 item 4). -/
def State.resAgrees (s : State) (r : Region) : Bool :=
  (s.view r).isResolved == valid (s.offset r) (regionSize r) s.blobLen

/-- R34 items 1 to 4: what `STATE` says of the views. -/
def State.stateOk (s : State) : Bool :=
  match s.state with
  | .uninitialized => regionsInOrder.all (fun r => !(s.view r).isResolved)
  | .partiallyResolved => regionsInOrder.any (fun r => !(s.view r).isResolved) && regionsInOrder.all s.resAgrees
  | .ready => regionsInOrder.all (fun r => (s.view r).isResolved) && regionsInOrder.all s.resAgrees

/-- The invariant of the reachable states (R34, R23), with the blob's form. -/
abbrev State.Inv (s : State) : Prop :=
  s.blobOk = true ∧ s.stateOk = true ∧ regionsInOrder.all s.viewOk = true

/-- `V[r]` is resolved to its region and the region lies inside the blob: what every element read of `r` needs (R53, R61). -/
abbrev State.ViewReady (s : State) (r : Region) : Prop :=
  s.view r = .resolved (s.offset r) (regionSize r) ∧ s.regionEnd r ≤ s.blobLen.toNat

/-- The step that an outcome reaches, if it reaches one. -/
def reached : StepOutcome → Option State
  | .next s => some s
  | .fault _ => none
  | .refused _ => none

/-- The outcome is a fault. -/
def isFault : StepOutcome → Bool
  | .next _ => false
  | .fault _ => true
  | .refused _ => false

end Sys2Proof.Machine
end

