-- ==== Sys2Proof/Certificates/Slice0/Reference.lean ====
section
/-! DEFINITION. The formulas of 41_dense_layer.md and 30_encoding.md R83 written a second time, over the integers and the
rationals and without the machine's functions, for the statements to compare the machine with. -/

namespace Sys2Proof.Reference

open Sys2Proof.Machine

/-- Element `k` of region `r`: the byte at `REGION_OFFSET[r] + k` as a signed value (R53). -/
def element (s : State) (r : Region) (k : Nat) : Int := (Memory.read s.mem ((s.offset r).toNat + k)).toInt

/-- The hidden layers' clamp to 0..127 (R146). -/
def relu (v : Int) : Int := max 0 (min 127 v)

/-- The output stage's clamp to -128..127 (R147). -/
def saturate (v : Int) : Int := max (-128) (min 127 v)

/-- Layer 1, unit `i` (R148). -/
def layer1 (s : State) (q : Int) (i : Nat) : Int :=
  relu ((element s .b1 i * 8 + element s .w1 i * q).tdiv 32)

/-- Layer 2, unit `i` (R149). -/
def layer2 (s : State) (l1 : Nat → Int) (i : Nat) : Int :=
  relu ((element s .b2 i * 8 + ∑ j ∈ Finset.range 16, element s .w2 (i * 16 + j) * l1 j).tdiv 32)

/-- The output unit (R150). -/
def output (s : State) (l2 : Nat → Int) : Int :=
  saturate ((element s .bout 0 * 8 + ∑ i ∈ Finset.range 16, element s .wout i * l2 i).tdiv 32)

/-- The three stages one after another (R186). -/
def network (s : State) (q : Int) : Int := output s (layer2 s (layer1 s q))

/-- The number a binary32 pattern stands for (R83); none for an infinity or a NaN. -/
def f32Value (b : F32) : Option ℚ :=
  let sign : ℚ := if b.getLsbD 31 then -1 else 1
  let e : Nat := (b.extractLsb' 23 8).toNat
  let f : ℚ := ((b.extractLsb' 0 23).toNat : ℚ) / 2 ^ 23
  if e = 255 then none
  else if e = 0 then some (sign * f / 2 ^ 126)
  else some (sign * (1 + f) * (2 : ℚ) ^ ((e : Int) - 127))

/-- The block's 2π, pattern 0x40C90FDB, as a number (R181, R182). -/
def twoPiValue : ℚ := 13176795 / 2 ^ 21

/-- More than the three roundings of QUANTIZE32 can move `t` together (R181, R185): half a unit in the last place of a
quotient up to 1 times 255, of a product up to 255, and of a difference of magnitude up to 128. -/
def quantizeError : ℚ := 1 / 2 ^ 15

/-- `trunc` on the rationals, toward zero (R8). -/
def truncQ (v : ℚ) : Int := if 0 ≤ v then ⌊v⌋ else ⌈v⌉

/-- The number an unpacked value stands for; none for an infinity or a NaN. -/
def fpValue : Fp → Option ℚ
  | .nan => none
  | .inf _ => none
  | .fin neg mag => some ((if neg then -1 else 1) * (mag : ℚ) / 2 ^ 149)

/-- `m` is the magnitude `v` rounds to (D7): it has at most 24 significant bits, no such magnitude lies nearer, and half way
between two neighbours `a * 2^k` and `(a + 1) * 2^k` it is the one with the even significand. -/
def IsRounding (v : ℚ) (m : Nat) : Prop :=
  (∃ sig k, m = sig * 2 ^ k ∧ sig < 2 ^ 24) ∧
  (∀ sig k : Nat, sig < 2 ^ 24 → |v - (m : ℚ)| ≤ |v - (sig * 2 ^ k : ℚ)|) ∧
  ∀ a k : Nat, a < 2 ^ 24 → (k = 0 ∨ 2 ^ 23 ≤ a) → v = (2 * a + 1) * 2 ^ k / 2 →
    m = (if a % 2 = 0 then a else a + 1) * 2 ^ k

/-- `r` is the number `v` rounded to binary32 with sign `neg` (D7): magnitudes are counted in units of 2^-149, and one that
rounds to 2^128 or above is an infinity. -/
def RoundsTo (neg : Bool) (v : ℚ) (r : Fp) : Prop :=
  ∃ m : Nat, IsRounding (|v| * 2 ^ 149) m ∧ r = if m < 2 ^ 277 then .fin neg m else .inf neg

/-- Why `Elem(r, k)` cannot be read, if it cannot (R52, R53; log entry 8). -/
def elementFault (s : State) (r : Region) (k : Nat) : Option Fault :=
  match s.view r with
  | .unresolved => some (.readThroughUnresolvedView r)
  | .resolved base len =>
    if len.toNat ≤ k then some (.elementOutsideView r k)
    else if s.blobLen.toNat ≤ base.toNat + k then some (.blobReadOutOfBounds (base.toNat + k))
    else none

/-- The first fault among elements read in the order listed. -/
def firstFault (s : State) (l : List (Region × Nat)) : Option Fault := l.findSome? (fun p => elementFault s p.1 p.2)

/-- The elements DENSE1 reads (R148), in the model's order: each unit's bias, then its weight. -/
def reads1 : List (Region × Nat) := (List.range 16).flatMap (fun i => [(.b1, i), (.w1, i)])

/-- The elements DENSE2 reads (R149), in the model's order: each unit's bias, then its row. -/
def reads2 : List (Region × Nat) :=
  (List.range 16).flatMap (fun i => (.b2, i) :: (List.range 16).map (fun j => (.w2, 16 * i + j)))

/-- The elements DENSEOUT reads (R150), in the model's order: the bias, then the weights. -/
def readsOut : List (Region × Nat) := (.bout, 0) :: (List.range 16).map (fun i => (.wout, i))

/-- An operation that reads these elements stops with the first one's fault, and completes where all can be read. -/
def StopsAsReads (s : State) (l : List (Region × Nat)) (o : StepOutcome) : Prop :=
  match firstFault s l with
  | some f => o = .fault f
  | none => ∃ t, o = .next t

/-- The reference layout PACKED (R60): 0, 16, 32, 288, 304, 320. -/
def packed : PerRegion Word := ⟨0, 16, 32, 288, 304, 320⟩

end Sys2Proof.Reference
end

