-- ==== Sys2Proof/Certificates/Slice0/Obligations.lean ====
section
/-! DEFINITION. The statements for the provers. Each docstring names the rule of spec/ it formalises. Where the spec marks
a rule as its own inference ("[derived: ...]") or decision ("[decision: ...]"), the statement's basis is derived. -/

open Sys2Proof Sys2Proof.Machine Sys2Proof.Reference

/-! ### The command word (30_encoding.md) -/

/-- A few command words, written out from R81 and R82 (D13) and R84 (D20). -/
def Obligations.CommandWordsDecode : Prop :=
  decode 0x00000000 = .nop ∧ decode 0x00000001 = .init ∧ decode 0x00000002 = .run ∧
  decode 0x00000003 = .reserved 0x00000003 ∧ decode 0x00000006 = .reserved 0x00000006 ∧
  decode 0x80000001 = .reserved 0x80000001

/-- Decoder and encoder agree in both directions: every word's operation is well formed and encodes to that word, and
every well-formed operation that has a word decodes from it (R80 to R84). -/
def Obligations.DecodeAndEncodeAgree : Prop :=
  (∀ w : Word, (decode w).WellFormed ∧ encode (decode w) = some w) ∧
  ∀ (i : Instr) (w : Word), i.WellFormed → encode i = some w → decode w = i

/-- R84 (D20): a word is reserved exactly when op = 3 or a bit of 31:2 is set, and writing such a word to CMD is refused by
name, in every state. -/
def Obligations.ReservedWordsAreRefused : Prop :=
  (∀ w : Word, decode w = .reserved w ↔ (w.toNat % 4 = 3 ∨ 4 ≤ w.toNat)) ∧
  (∀ (w : Word) (s : State), exec (.reserved w) s = .refused (.reservedCommandWord w)) ∧
  ∀ (w : Word) (s : State) (es : List HostEvent), (w.toNat % 4 = 3 ∨ 4 ≤ w.toNat) →
    s.events = .writeReg 15 w :: es → step s = .refused (.reservedCommandWord w)

/-- R88 (D16): the fields of an OOB record, the DUP_INIT record, and that two records with one layout are one record. -/
def Obligations.DiagRecordLayout : Prop :=
  (∀ (r : Region) (off size len : Word),
    (recordBits (.oob r off size len)).extractLsb' 0 2 = 1 ∧
    (recordBits (.oob r off size len)).extractLsb' 2 3 = BitVec.ofNat 3 (regionIndex r) ∧
    (recordBits (.oob r off size len)).extractLsb' 5 27 = 0 ∧
    (recordBits (.oob r off size len)).extractLsb' 32 32 = off ∧
    (recordBits (.oob r off size len)).extractLsb' 64 32 = size ∧
    (recordBits (.oob r off size len)).extractLsb' 96 32 = len) ∧
  recordBits .dupInit = 2 ∧ Function.Injective recordBits

/-- R86 (D14): a view's 65 bits are res, base, len, all 0 when Unresolved, and tell views apart; R85 (D12): the codes of
STATE. -/
def Obligations.ViewAndStateCodes : Prop :=
  (∀ base len : Word, (viewBits (.resolved base len)).extractLsb' 64 1 = 1 ∧
    (viewBits (.resolved base len)).extractLsb' 32 32 = base ∧
    (viewBits (.resolved base len)).extractLsb' 0 32 = len) ∧
  viewBits .unresolved = 0 ∧ Function.Injective viewBits ∧
  stateCode .uninitialized = 0 ∧ stateCode .partiallyResolved = 1 ∧ stateCode .ready = 2

/-! ### Steps -/

/-- A step runs the decoded command (R28, R81): when the oldest pending event writes `w` to CMD, the step takes the event
and is exec of what `w` decodes to; withFetchWord places such an event. -/
def Obligations.StepRunsDecodedCommand : Prop :=
  (∀ (s : State) (w : Word) (es : List HostEvent), s.events = .writeReg 15 w :: es →
    step s = exec (decode w) { s with events := es }) ∧
  ∀ (s : State) (w : Word), step (s.withFetchWord 32 w.toNat) = exec (decode w) s

/-- The other events of the host (R269, R272): RESET and TO_PATTERN are run, a write of X stores it, a read of DIAG gives
the records so far, and with nothing pending the block is idle and loses no state (R237). -/
def Obligations.StepServesHostEvents : Prop :=
  ∀ (s : State) (es : List HostEvent) (v : Word),
    (s.events = [] → step s = .next s) ∧
    (s.events = .reset :: es → step s = exec .reset { s with events := es }) ∧
    (s.events = .pattern v :: es → step s = exec (.toPattern v) { s with events := es }) ∧
    (s.events = .writeReg 16 v :: es → step s = .next { s with events := es, x := v }) ∧
    (s.events = .readDiag :: es → step s = .next { s with events := es, reply := some (.records s.diag) })

/-- The host's register map (R28, D15): what a read of each number gives, changing nothing of the block; a read of the
write-only CMD, a write of a read-only register and a number above 17 are refused by name (log entry 11). -/
def Obligations.HostRegisterMap : Prop :=
  ∀ (s : State) (es : List HostEvent) (n : Nat) (v : Word),
    (s.events = .readReg 0 :: es → step s = .next { s with events := es, reply := some (.word
      (match s.state with | .uninitialized => 0 | .partiallyResolved => 1 | .ready => 2)) }) ∧
    (s.events = .readReg 1 :: es → ∃ w : Word, w.toNat < 64 ∧
      (∀ r, w.getLsbD (regionIndex r) = (s.view r).isResolved) ∧
      step s = .next { s with events := es, reply := some (.word w) }) ∧
    (s.events = .readReg 2 :: es → step s = .next { s with events := es, reply := some (.word s.blobLen) }) ∧
    (∀ r, s.events = .readReg (3 + 2 * regionIndex r) :: es →
      step s = .next { s with events := es, reply := some (.word (s.offset r)) }) ∧
    (∀ r, s.events = .readReg (4 + 2 * regionIndex r) :: es →
      step s = .next { s with events := es, reply := some (.word (regionSize r)) }) ∧
    (s.events = .readReg 16 :: es → step s = .next { s with events := es, reply := some (.word s.x) }) ∧
    (s.events = .readReg 17 :: es → step s = .next { s with events := es, reply := some (.word s.y) }) ∧
    (s.events = .readReg 15 :: es → step s = .refused (.readOfWriteOnlyRegister 15)) ∧
    (s.events = .readReg n :: es → 18 ≤ n → step s = .refused (.noSuchRegister n)) ∧
    (s.events = .writeReg n v :: es → (n < 15 ∨ n = 17) → step s = .refused (.writeToReadOnlyRegister n)) ∧
    (s.events = .writeReg n v :: es → 18 ≤ n → step s = .refused (.noSuchRegister n))

/-- R195 (D13): NOP changes nothing. -/
def Obligations.NopChangesNothing : Prop := ∀ s : State, exec .nop s = .next s

/-- R260, R40, R41: RESET completes from every state, with STATE, the views and DIAG at their reset values; X and Y are left
unspecified and the count of draws is the model's (log entries 3, 4); nothing else changes, the parameters among it. -/
def Obligations.ResetEventRestoresEngine : Prop :=
  ∀ s : State, ∃ t, exec .reset s = .next t ∧ t.state = .uninitialized ∧ (∀ r, t.view r = .unresolved) ∧ t.diag = [] ∧
    t = { s with state := t.state, views := t.views, diag := t.diag, x := t.x, y := t.y, draws := t.draws }

/-- R40: the architectural state right after reset, and the VALID and STATE registers it shows. -/
def Obligations.ResetStateHasStatedValues : Prop :=
  State.reset.state = .uninitialized ∧ (∀ r, State.reset.view r = .unresolved) ∧ State.reset.diag = [] ∧
  readRegister State.reset 0 = .ok 0 ∧ readRegister State.reset 1 = .ok 0

/-! ### Bounds check, RESOLVE, INIT (40_bounds_resolver.md) -/

/-- R110 (D4) and R111: VALID is the integer comparison, for every operand; so it is monotone in the length. -/
def Obligations.ValidIsIntegerComparison : Prop :=
  (∀ (off size len : Word) (s : State), exec (.valid off size len) s =
    .next { s with reply := some (.flag (decide (off.toNat + size.toNat ≤ len.toNat))) }) ∧
  ∀ off size len len' : Word, valid off size len = true → len.toNat ≤ len'.toNat → valid off size len' = true

/-- R112: RESOLVE sets the view where the check holds; where it fails it leaves the view Unresolved and appends the OOB
record; no other view and nothing else changes. -/
def Obligations.ResolveWritesOneView : Prop :=
  ∀ (s : State) (r : Region),
    exec (.resolve r) s = .next (
      if s.regionEnd r ≤ s.blobLen.toNat then
        { s with views := s.views.set r (.resolved (s.offset r) (regionSize r)) }
      else { s with views := s.views.set r .unresolved
                    diag := s.diag ++ [.oob r (s.offset r) (regionSize r) s.blobLen] }) ∧
    ∀ v, (s.views.set r v).get r = v ∧ ∀ q, q ≠ r → (s.views.set r v).get q = s.view q

/-- R114: INIT from Uninitialized completes; each view is resolved exactly when its region lies in the blob, the failing
regions are recorded in region order, STATE is Ready exactly when all six resolve, and nothing else changes. From any
other STATE one DUP_INIT record is appended and nothing else changes. The order of the records is D3 (log entry 15). -/
def Obligations.InitResolvesAllRegions : Prop :=
  (∀ s : State, s.state ≠ .uninitialized → exec .init s = .next { s with diag := s.diag ++ [.dupInit] }) ∧
  ∀ s : State, s.state = .uninitialized → ∃ t, exec .init s = .next t ∧
    (∀ r, t.view r = if s.regionEnd r ≤ s.blobLen.toNat then .resolved (s.offset r) (regionSize r) else .unresolved) ∧
    t.state = (if ∀ r ∈ regionsInOrder, s.regionEnd r ≤ s.blobLen.toNat then .ready else .partiallyResolved) ∧
    t.diag = s.diag ++ (regionsInOrder.filter (fun r => decide (s.blobLen.toNat < s.regionEnd r))).map
      (fun r => .oob r (s.offset r) (regionSize r) s.blobLen) ∧
    t = { s with state := t.state, views := t.views, diag := t.diag }

/-- R115: INIT in any other STATE appends one DUP_INIT record and changes nothing else, and no step but the one that
serves RESET takes the engine out of PartiallyResolved. -/
def Obligations.DuplicateInitOnlyLogs : Prop :=
  (∀ s : State, s.state ≠ .uninitialized → exec .init s = .next { s with diag := s.diag ++ [.dupInit] }) ∧
  ∀ s t : State, s.state = .partiallyResolved → (∀ es, s.events ≠ .reset :: es) → step s = .next t →
    t.state = .partiallyResolved

/-- R116, its four properties, the fourth as 20_memory.md R59 reads it (C4). -/
def Obligations.InitTestableProperties : Prop :=
  (∀ s : State, s.state = .uninitialized → (∀ r, s.regionEnd r ≤ s.blobLen.toNat) →
    ∃ t, exec .init s = .next t ∧ t.state = .ready) ∧
  (∀ (s : State) (r : Region), s.state = .uninitialized → s.blobLen.toNat < s.regionEnd r →
    ∃ t, exec .init s = .next t ∧ t.view r = .unresolved ∧ t.state = .partiallyResolved) ∧
  (∀ s : State, ∃ t u, exec .init s = .next t ∧ exec .init t = .next u ∧ u.state = t.state ∧ u.views = t.views) ∧
  ∀ (s : State) (r : Region), s.state = .uninitialized → s.blobLen.toNat + 1 = s.regionEnd r →
    (∀ q, q ≠ r → s.regionEnd q < s.regionEnd r) →
    ∃ t, exec .init s = .next t ∧ t.view r = .unresolved ∧ ∀ q, q ≠ r → (t.view q).isResolved = true

/-- R117 (the spec's own inference): the table of INIT's outcome for the PACKED layout, by blob length. -/
def Obligations.PackedLayoutOutcome : Prop :=
  ∀ s : State, s.state = .uninitialized → s.offsets = packed → ∃ t, exec .init s = .next t ∧
    let len := s.blobLen.toNat
    (resBits t).toNat = (if len < 16 then 0 else if len < 32 then 1 else if len < 288 then 3 else if len < 304 then 7
      else if len < 320 then 15 else if len < 321 then 31 else 63) ∧
    t.diag.length = s.diag.length + (if len < 16 then 6 else if len < 32 then 5 else if len < 288 then 4
      else if len < 304 then 3 else if len < 320 then 2 else if len < 321 then 1 else 0) ∧
    t.state = (if len < 321 then .partiallyResolved else .ready)

/-! ### The dense unit (41_dense_layer.md) -/

/-- R141 and R142: MAC is the exact sum, for every number of terms (R141 has 1 or 16, more is log entry 10); the products and
the bias term keep the stated ranges. -/
def Obligations.MacIsExactSum : Prop :=
  (∀ (bias : Code) (terms : List (Code × Code)) (s : State), exec (.mac bias terms) s =
    .next { s with reply := some (.number (bias.toInt * 8 + (terms.map (fun t => t.1.toInt * t.2.toInt)).sum)) }) ∧
  (∀ a b : Code, -16256 ≤ a.toInt * b.toInt ∧ a.toInt * b.toInt ≤ 16384) ∧
  ∀ a : Code, -1024 ≤ a.toInt * 8 ∧ a.toInt * 8 ≤ 1016

/-- R143 (the spec's own inference): the order of the terms is not observable. -/
def Obligations.MacOrderUnobservable : Prop :=
  ∀ (bias : Code) (terms terms' : List (Code × Code)) (s : State), terms.Perm terms' →
    exec (.mac bias terms) s = exec (.mac bias terms') s

/-- R144 (the spec's own inference): the ranges of the accumulators and of their quotients, and that the ends are attained.
The inputs of the second layer and of the output are codes in 0..127. -/
def Obligations.AccumulatorRanges : Prop :=
  (∀ b w q : Code, -17280 ≤ mac b [(w, q)] ∧ mac b [(w, q)] ≤ 17400 ∧
    -540 ≤ divt32 (mac b [(w, q)]) ∧ divt32 (mac b [(w, q)]) ≤ 543) ∧
  (∀ (b : Code) (terms : List (Code × Code)), terms.length = 16 → (∀ t ∈ terms, t.2.toNat ≤ 127) →
    -261120 ≤ mac b terms ∧ mac b terms ≤ 259080 ∧
    -8160 ≤ divt32 (mac b terms) ∧ divt32 (mac b terms) ≤ 8096) ∧
  mac 0x80 [(0x7F, 0x80)] = -17280 ∧ mac 0x7F [(0x80, 0x80)] = 17400 ∧
  mac 0x80 (List.replicate 16 (0x80, 0x7F)) = -261120 ∧ mac 0x7F (List.replicate 16 (0x7F, 0x7F)) = 259080

/-- R145: DIVT32 truncates toward zero, with the rule's properties and its shift identity (the spec's own inference). -/
def Obligations.Divt32TruncatesTowardZero : Prop :=
  (∀ (a : Int) (s : State), exec (.divt32 a) s = .next { s with reply := some (.number (a.tdiv 32)) }) ∧
  ∀ a : Int, divt32 (-a) = -divt32 a ∧ (divt32 a).natAbs = a.natAbs / 32 ∧
    (∀ b, a ≤ b → divt32 a ≤ divt32 b) ∧
    (0 ≤ a → 0 ≤ a - 32 * divt32 a) ∧ (a ≤ 0 → a - 32 * divt32 a ≤ 0) ∧ (a - 32 * divt32 a).natAbs < 32 ∧
    (0 ≤ a → divt32 a = a >>> (5 : Nat)) ∧ (a < 0 → divt32 a = (a + 31) >>> (5 : Nat))

/-- R146: RELU_CLAMP, for every integer: below 0 gives 0, above 127 gives 127, else the operand; monotone, idempotent. -/
def Obligations.ReluClampSaturates : Prop :=
  (∀ (v : Int) (s : State), ∃ c : Code, exec (.reluClamp v) s = .next { s with reply := some (.code c) } ∧
    c.toInt = (if v < 0 then 0 else if v > 127 then 127 else v)) ∧
  (∀ v w : Int, v ≤ w → reluClamp v ≤ reluClamp w) ∧ ∀ v : Int, reluClamp (reluClamp v) = reluClamp v

/-- R147: SYM_CLAMP, for every integer: below -128 gives -128, above 127 gives 127, else the operand; monotone,
idempotent. -/
def Obligations.SymClampSaturates : Prop :=
  (∀ (v : Int) (s : State), ∃ c : Code, exec (.symClamp v) s = .next { s with reply := some (.code c) } ∧
    c.toInt = (if v < -128 then -128 else if v > 127 then 127 else v)) ∧
  (∀ v w : Int, v ≤ w → symClamp v ≤ symClamp w) ∧ ∀ v : Int, symClamp (symClamp v) = symClamp v

/-- R153 (the spec's own inference): the direction of the division cannot be seen behind the hidden clamp, and behind the
output clamp it is seen exactly at the accumulators -4095 to -1 that are no multiple of 32. -/
def Obligations.TruncationDirectionVisibility : Prop :=
  (∀ a : Int, reluClamp (divt32 a) = reluClamp (a / 32)) ∧
  (∀ a : Int, -4095 ≤ a → a ≤ -1 → a % 32 ≠ 0 → symClamp (divt32 a) = symClamp (a / 32) + 1) ∧
  ∀ a : Int, (a < -4095 ∨ 0 ≤ a ∨ a % 32 = 0) → symClamp (divt32 a) = symClamp (a / 32)

/-- R154 (the spec's own inference): quotient and clamp as one function of the accumulator. -/
def Obligations.QuotientAndClampCombined : Prop :=
  (∀ a : Int, a ≤ 31 → reluClamp (divt32 a) = 0) ∧
  (∀ a : Int, 32 ≤ a → a ≤ 4095 → reluClamp (divt32 a) = a / 32) ∧
  (∀ a : Int, 4064 ≤ a → reluClamp (divt32 a) = 127) ∧
  (∀ a : Int, a ≤ -4096 → symClamp (divt32 a) = -128) ∧
  (∀ a : Int, -4127 ≤ a → a ≤ 4095 → symClamp (divt32 a) = a.tdiv 32) ∧
  ∀ a : Int, 4064 ≤ a → symClamp (divt32 a) = 127

/-- R148: DENSE1, for every code, wherever the two views it reads are resolved inside the blob. -/
def Obligations.Dense1ComputesLayer : Prop :=
  ∀ (s : State) (q : Code), s.ViewReady .w1 → s.ViewReady .b1 →
    ∃ l : List Code, exec (.dense1 q) s = .next { s with reply := some (.codes l) } ∧ l.length = 16 ∧
      ∀ i, i < 16 → (l.getD i 0).toInt = layer1 s q.toInt i

/-- R149: DENSE2, for every 16 codes (R149 has 0 to 127, the others are log entry 10), wherever the two views it reads are
resolved inside the blob. -/
def Obligations.Dense2ComputesLayer : Prop :=
  ∀ (s : State) (l1 : List Code), l1.length = 16 → s.ViewReady .w2 → s.ViewReady .b2 →
    ∃ l : List Code, exec (.dense2 l1) s = .next { s with reply := some (.codes l) } ∧ l.length = 16 ∧
      ∀ i, i < 16 → (l.getD i 0).toInt = layer2 s (fun j => (l1.getD j 0).toInt) i

/-- R150: DENSEOUT, for every 16 codes (R150 has 0 to 127, the others are log entry 10), wherever the two views it reads are
resolved inside the blob. -/
def Obligations.DenseOutComputesUnit : Prop :=
  ∀ (s : State) (l2 : List Code), l2.length = 16 → s.ViewReady .wout → s.ViewReady .bout →
    ∃ c : Code, exec (.denseOut l2) s = .next { s with reply := some (.code c) } ∧
      c.toInt = output s (fun j => (l2.getD j 0).toInt)

/-- The model's stops of the stages (log entries 8, 10): a stage, FORWARD, and RUN in Ready stop with the fault of the first
element they cannot read (R52, R53), be its view Unresolved, its index outside the view or its address outside the blob,
and complete where they can read all; a layer operand that is not 16 codes is refused (R149, R150). -/
def Obligations.StageStopsByName : Prop :=
  ∀ s : State,
    (∀ q, StopsAsReads s reads1 (exec (.dense1 q) s)) ∧
    (∀ l, l.length = 16 → StopsAsReads s reads2 (exec (.dense2 l) s)) ∧
    (∀ l, l.length = 16 → StopsAsReads s readsOut (exec (.denseOut l) s)) ∧
    (∀ q, StopsAsReads s (reads1 ++ reads2 ++ readsOut) (exec (.forward q) s)) ∧
    (s.state = .ready → StopsAsReads s (reads1 ++ reads2 ++ readsOut) (exec .run s)) ∧
    (∀ q, s.view .b1 = .unresolved → exec (.dense1 q) s = .fault (.readThroughUnresolvedView .b1)) ∧
    (∀ l, l.length = 16 → s.view .b2 = .unresolved → exec (.dense2 l) s = .fault (.readThroughUnresolvedView .b2)) ∧
    (∀ l, l.length = 16 → s.view .bout = .unresolved →
      exec (.denseOut l) s = .fault (.readThroughUnresolvedView .bout)) ∧
    (∀ l, l.length ≠ 16 → exec (.dense2 l) s = .refused (.notSixteenCodes l.length)) ∧
    ∀ l, l.length ≠ 16 → exec (.denseOut l) s = .refused (.notSixteenCodes l.length)

/-- R155: with every weight and bias 0 every stage outputs 0, whatever its input is (layer codes outside 0 to 127 are log
entry 10). -/
def Obligations.ZeroNetworkOutputsZero : Prop :=
  ∀ s : State, (∀ r, s.ViewReady r) → (∀ r k, k < (regionSize r).toNat → element s r k = 0) →
    (∀ q, exec (.dense1 q) s = .next { s with reply := some (.codes (List.replicate 16 0)) }) ∧
    (∀ l, l.length = 16 → exec (.dense2 l) s = .next { s with reply := some (.codes (List.replicate 16 0)) }) ∧
    (∀ l, l.length = 16 → exec (.denseOut l) s = .next { s with reply := some (.code 0) }) ∧
    ∀ q, exec (.forward q) s = .next { s with reply := some (.code 0) }

/-! ### The pipeline (42_pipeline.md) -/

/-- R186 (D25): FORWARD is the three stages' formula, for every code. -/
def Obligations.ForwardComputesNetwork : Prop :=
  ∀ (s : State) (q : Code), (∀ r, s.ViewReady r) →
    ∃ c : Code, exec (.forward q) s = .next { s with reply := some (.code c) } ∧ c.toInt = network s q.toInt

/-- R182: the boundary contract of the quantizer at +0.0 and at the block's own 2π. -/
def Obligations.QuantizeBoundaryContract : Prop :=
  ∀ s : State,
    (∃ c : Code, exec (.quantize 0x00000000) s = .next { s with reply := some (.code c) } ∧ c.toInt = -128) ∧
    ∃ c : Code, exec (.quantize 0x40C90FDB) s = .next { s with reply := some (.code c) } ∧ c.toInt = 127

/-- QUANTIZE completes on every number with a code that depends on the number alone (R183 Q_FUN, Q_RANGE), and changes
nothing else. From 0 to the block's 2π the code is trunc(u - 128) of the exact u = x / 2π * 255 (R180, R185), wherever u is
further than quantizeError from every bin edge: the integers but 128. The binary32 body is D7, D8 (log entry 5). -/
def Obligations.QuantizeAnswersOnNumbers : Prop :=
  (∀ x : F32, isNaN x = false → ∃ q : Code, quantize32 x = some q ∧
    ∀ s : State, exec (.quantize x) s = .next { s with reply := some (.code q) }) ∧
  f32Value 0x40C90FDB = some twoPiValue ∧
  ∀ (x : F32) (v : ℚ), x.toNat < 0x40C90FDB → f32Value x = some v →
    (∀ k : Int, k ≠ 128 → quantizeError < |v / twoPiValue * 255 - k|) →
    ∃ q : Code, quantize32 x = some q ∧ q.toInt = truncQ (v / twoPiValue * 255 - 128)

/-- R184 (D9): the code of a NaN is a draw, a free value of the model (log entry 4); the rest of the state is unchanged. -/
def Obligations.QuantizeNaNIsADraw : Prop :=
  ∀ (x : F32) (s : State), isNaN x = true → exec (.quantize x) s =
    .next { s with reply := some (.code (Config.freeCode s.draws)), draws := s.draws + 1 }

/-- R183 Q_CLAMP_LO and Q_CLAMP_HI, R184: -0.0 and everything below gives -128, the block's 2π and everything above gives
127, the infinities included; and nothing below the block's 2π gives 127 (R185; the binary32 body is D7, log entry 5). -/
def Obligations.QuantizeClampsOutside : Prop :=
  (∀ x : F32, 0x80000000 ≤ x.toNat → x.toNat ≤ 0xFF800000 → quantize32 x = some (BitVec.ofInt 8 (-128))) ∧
  (∀ x : F32, 0x40C90FDB ≤ x.toNat → x.toNat ≤ 0x7F800000 → quantize32 x = some 127) ∧
  ∀ x : F32, x.toNat < 0x40C90FDB → ∃ q : Code, quantize32 x = some q ∧ q.toInt ≤ 126

/-- R182, R183 Q_MONO: the quantizer is monotonically non-decreasing on all binary32 numbers. -/
def Obligations.QuantizeIsMonotone : Prop :=
  ∀ a b : F32, isNaN a = false → isNaN b = false → Fp.lt (Fp.decode b) (Fp.decode a) = false →
    ∃ p q : Code, quantize32 a = some p ∧ quantize32 b = some q ∧ p.toInt ≤ q.toInt

/-- R181, R184, C9 (the spec's own computation, under D7, log entry 5): where the product u of a number is at most 2^-18 the
subtraction rounds to -128.0 and the code is -128; above that, up to 1, the code is -127. The patterns up to 0x33C9D9B6 are
those of the first kind, the next ones up to 0x3CC9D9E8 give -127. The unit of a magnitude is 2^-149. -/
def Obligations.QuantizeTinyInputs : Prop :=
  (∀ m : Nat, m ≤ 2 ^ 131 → Fp.trunc (Fp.sub (.fin false m) (Fp.ofInt 128)) = some (-128)) ∧
  (∀ m : Nat, 2 ^ 131 < m → m ≤ 2 ^ 149 → Fp.trunc (Fp.sub (.fin false m) (Fp.ofInt 128)) = some (-127)) ∧
  (∀ (x : F32) (m : Nat), quantizeU x = .fin false m → m ≤ 2 ^ 131 → quantize32 x = some (BitVec.ofInt 8 (-128))) ∧
  (∀ (x : F32) (m : Nat), quantizeU x = .fin false m → 2 ^ 131 < m → m ≤ 2 ^ 149 →
    quantize32 x = some (BitVec.ofInt 8 (-127))) ∧
  (∀ x : F32, x.toNat ≤ 0x33C9D9B6 → (∃ m, quantizeU x = .fin false m ∧ m ≤ 2 ^ 131) ∧
    quantize32 x = some (BitVec.ofInt 8 (-128))) ∧
  ∀ x : F32, 0x33C9D9B6 < x.toNat → x.toNat ≤ 0x3CC9D9E8 → (∃ m, quantizeU x = .fin false m ∧ 2 ^ 131 < m) ∧
    quantize32 x = some (BitVec.ofInt 8 (-127))

/-- The arithmetic of D7 (log entry 5): a fraction rounds to the nearest magnitude of at most 24 significant bits, ties to
even, and each operation rounds its exact result so; a difference or sum of 0 has the sign IEEE 754 gives it. Unpacking a
pattern keeps its number, its sign, its infinity and its NaN (R83), and packing undoes it. -/
def Obligations.RoundingIsNearest : Prop :=
  (∀ num den : Nat, 0 < den → IsRounding ((num : ℚ) / den) (roundMag num den)) ∧
  (∀ (a b : Fp) (va vb : ℚ), fpValue a = some va → fpValue b = some vb → ∃ na ma nb mb,
    a = .fin na ma ∧ b = .fin nb mb ∧
    RoundsTo (na ^^ nb) (va * vb) (Fp.mul a b) ∧
    (vb ≠ 0 → RoundsTo (na ^^ nb) (va / vb) (Fp.div a b)) ∧
    RoundsTo (if va + vb = 0 then na && nb else decide (va + vb < 0)) (va + vb) (Fp.add a b) ∧
    RoundsTo (if va - vb = 0 then na && !nb else decide (va - vb < 0)) (va - vb) (Fp.sub a b)) ∧
  (∀ z : Int, RoundsTo (decide (z < 0)) z (Fp.ofInt z)) ∧
  ∀ b : F32, fpValue (Fp.decode b) = f32Value b ∧
    (∀ neg mag, Fp.decode b = .fin neg mag → neg = b.getLsbD 31) ∧
    (∀ neg, Fp.decode b = .inf neg ↔
      b.extractLsb' 23 8 = 0xFF ∧ b.extractLsb' 0 23 = 0 ∧ neg = b.getLsbD 31) ∧
    (isNaN b = true ↔ b.extractLsb' 23 8 = 0xFF ∧ b.extractLsb' 0 23 ≠ 0) ∧
    (isNaN b = false → Fp.encode (Fp.decode b) = b)

/-- R187, R188: DEQUANTIZE is exactly out_q / 128, for every code; the zero is +0.0, and +1.0 is never produced. -/
def Obligations.DequantizeIsExact : Prop :=
  ∀ (c : Code) (s : State), exec (.dequantize c) s = .next { s with reply := some (.float (dequantize c)) } ∧
    f32Value (dequantize c) = some ((c.toInt : ℚ) / 128) ∧ dequantize c ≠ 0x80000000 ∧ dequantize c ≠ 0x3F800000

/-- R190, R119 (D11, D17): RUN in any STATE but Ready puts +0.0 in Y and changes nothing else, for every X, the NaNs
included. -/
def Obligations.RunNotReadyGivesZero : Prop :=
  ∀ s : State, s.state ≠ .ready → exec .run s = .next { s with y := 0x00000000 }

/-- R189 (D17): RUN in Ready is quantizer, network and dequantizer, for every X that is a number. -/
def Obligations.RunComputesPipeline : Prop :=
  ∀ s : State, s.state = .ready → (∀ r, s.ViewReady r) → isNaN s.x = false →
    ∃ (q : Code) (y : F32), quantize32 s.x = some q ∧ f32Value y = some ((network s q.toInt : ℚ) / 128) ∧
      y ≠ 0x80000000 ∧ exec .run s = .next { s with y := y }

/-- R189, R184 (D9): RUN in Ready on a NaN is the network of a drawn code (log entry 4). -/
def Obligations.RunOnNaNUsesADraw : Prop :=
  ∀ s : State, s.state = .ready → (∀ r, s.ViewReady r) → isNaN s.x = true →
    ∃ y : F32, f32Value y = some ((network s (Config.freeCode s.draws).toInt : ℚ) / 128) ∧
      exec .run s = .next { s with y := y, draws := s.draws + 1 }

/-- R191: the result of RUN is a function of X, STATE and, in Ready, the elements the views select, and of nothing else; a NaN
in Ready is the one exception. -/
def Obligations.RunIsDeterministic : Prop :=
  ∀ s t s' : State, s.state = t.state → s.x = t.x → (s.state = .ready → isNaN s.x = false) →
    (s.state = .ready → ∀ r k, k < (regionSize r).toNat → elem s r k = elem t r k) → exec .run s = .next s' →
    ∃ t', exec .run t = .next t' ∧ t'.y = s'.y

/-- R192 (the spec's own inference): the values RUN can put in Y are the 256 numbers c / 128. -/
def Obligations.RunCodomain : Prop :=
  ∀ s t : State, exec .run s = .next t →
    ∃ c : Code, f32Value t.y = some ((c.toInt : ℚ) / 128) ∧ t.y ≠ 0x80000000 ∧ t.y ≠ 0x3F800000

/-- R189: what RUN leaves unchanged: everything but Y, and but the model's count of draws on a NaN. -/
def Obligations.RunWritesOnlyY : Prop :=
  ∀ s t : State, exec .run s = .next t → t = { s with y := t.y, draws := t.draws } ∧
    (isNaN s.x = false ∨ s.state ≠ .ready → t.draws = s.draws)

/-- R196: with every weight and bias 0, RUN gives +0.0 for every X, the NaNs included, and TO_PATTERN(0.0) is 128. That RUN
changes nothing else, DIAG among it, is D17 (log entry 20); the count of draws and the reply port are the model's (log
entries 4, 7). -/
def Obligations.ZeroBlobRunsToZero : Prop :=
  ∀ s : State, s.state = .ready → (∀ r, s.ViewReady r) → (∀ r k, k < (regionSize r).toNat → element s r k = 0) →
    (∃ t, exec .run s = .next t ∧ t.y = 0x00000000 ∧ t = { s with y := t.y, draws := t.draws }) ∧
    exec (.toPattern 0x00000000) s = .next { s with reply := some (.pattern 128) }

/-- R194 (the spec's own inference): TO_PATTERN on the values RUN returns. -/
def Obligations.ToPatternOfPipelineOutputs : Prop :=
  ∀ (c : Code) (s : State), exec (.toPattern (dequantize c)) s =
    .next { s with reply := some (.pattern (BitVec.ofInt 8 (((c.toInt + 128) * 255 + 128) / 256))) }

/-- R193, R194: TO_PATTERN clamps outside -1.0 to 1.0, is monotonically non-decreasing, and completes on every number with
a pattern that depends on the number alone. -/
def Obligations.ToPatternClampsAndIsMonotone : Prop :=
  (∀ (y : F32) (s : State), 0xBF800000 ≤ y.toNat → y.toNat ≤ 0xFF800000 →
    exec (.toPattern y) s = .next { s with reply := some (.pattern 0) }) ∧
  (∀ (y : F32) (s : State), 0x3F800000 ≤ y.toNat → y.toNat ≤ 0x7F800000 →
    exec (.toPattern y) s = .next { s with reply := some (.pattern 255) }) ∧
  ∀ a b : F32, isNaN a = false → isNaN b = false → Fp.lt (Fp.decode b) (Fp.decode a) = false →
    ∃ p q : Byte, p.toNat ≤ q.toNat ∧
      (∀ s : State, exec (.toPattern a) s = .next { s with reply := some (.pattern p) }) ∧
      ∀ s : State, exec (.toPattern b) s = .next { s with reply := some (.pattern q) }

/-- R194 (D21): the pattern of a NaN is a draw, a free value of the model (log entry 4). -/
def Obligations.ToPatternNaNIsADraw : Prop :=
  ∀ (y : F32) (s : State), isNaN y = true → exec (.toPattern y) s =
    .next { s with reply := some (.pattern (Config.freePattern s.draws)), draws := s.draws + 1 }

/-! ### The whole machine -/

/-- R34, R23: every step keeps the invariant of the reachable states. -/
def Obligations.StepKeepsInvariant : Prop := ∀ s t : State, s.Inv → step s = .next t → t.Inv

/-- The state after reset meets the invariant (R34, R40). -/
def Obligations.ResetMeetsInvariant : Prop := State.reset.Inv

/-- R61 (the spec's own inference), U10: from a state that meets the invariant no step faults, so no step reads outside the
blob or through an Unresolved view. -/
def Obligations.StepNeverFaults : Prop := ∀ s : State, s.Inv → isFault (step s) = false

/-- R34 items 2 and 5 with R61: in Ready every view is resolved to its region inside the blob. -/
def Obligations.ReadyMeansViewsInsideBlob : Prop :=
  ∀ s : State, s.Inv → s.state = .ready → ∀ r, s.ViewReady r

/-- R263, R226: from a state that meets the invariant every command of the host completes. -/
def Obligations.CommandsAlwaysComplete : Prop :=
  ∀ (s : State) (w : Word) (es : List HostEvent), s.Inv → w.toNat < 3 → s.events = .writeReg 15 w :: es →
    ∃ t, step s = .next t ∧ t.events = es

/-- R25, R56, R67 (P_CONST): no step changes a byte of the blob, its length or the region table; the reads of every byte
are as before. -/
def Obligations.StepKeepsBuildParameters : Prop :=
  ∀ s t : State, step s = .next t →
    t.blobLen = s.blobLen ∧ t.offsets = s.offsets ∧ ∀ a, Memory.read t.mem a = Memory.read s.mem a

/-- R21: the transition relation of STATE: RESET, INIT from Uninitialized, and no other event changes it. -/
def Obligations.StateTransitionRelation : Prop :=
  ∀ s t : State, step s = .next t →
    t.state = (match s.events with
      | .reset :: _ => .uninitialized
      | .writeReg 15 0x00000001 :: _ =>
        if s.state = .uninitialized then
          (if ∀ r ∈ regionsInOrder, s.regionEnd r ≤ s.blobLen.toNat then .ready else .partiallyResolved)
        else s.state
      | _ => s.state)

/-- R118, R22: once STATE has left Uninitialized, only RESET writes a view. -/
def Obligations.ViewsReadOnlyAfterInit : Prop :=
  ∀ s t : State, s.state ≠ .uninitialized → (∀ es, s.events ≠ .reset :: es) → step s = .next t → t.views = s.views

/-- R31, R230: no event but RESET removes a record from DIAG, and no event but INIT adds one. -/
def Obligations.DiagOnlyGrows : Prop :=
  ∀ s t : State, (∀ es, s.events ≠ .reset :: es) → step s = .next t →
    s.diag <+: t.diag ∧ ((∀ es, s.events ≠ .writeReg 15 0x00000001 :: es) → t.diag = s.diag)

/-- R224, R119: a degraded engine stays degraded, with the views it has, through any run without RESET. -/
def Obligations.DegradedUntilReset : Prop :=
  ∀ (k : Nat) (s t : State), s.state = .partiallyResolved → HostEvent.reset ∉ s.events →
    Host.Core.run Sys2Proof.core k s = .next t → t.state = .partiallyResolved ∧ t.views = s.views

/-- R236 and R27 (the reply port and the draws are log entries 7, 4): the arithmetic operations write nothing but their result: STATE, the views, DIAG, X, Y and every byte of
memory are as before. -/
def Obligations.ArithmeticLeavesEngine : Prop :=
  ∀ (i : Instr) (s t : State),
    i ≠ .nop → i ≠ .init → i ≠ .run → i ≠ .reset → (∀ r, i ≠ .resolve r) → exec i s = .next t →
    t = { s with reply := t.reply, draws := t.draws } ∧ t.reply ≠ none
end

