-- ==== Sys2Proof/Laws/State.lean ====
section
/-! SUPPORT. One lemma per field per update of the state, so that no proof unfolds a record update. -/

namespace Sys2Proof.Machine

variable (s : State)

/-! ### setState -/

@[simp] theorem State.setState_state (v : EngineState) : (s.setState v).state = v := rfl
@[simp] theorem State.setState_views (v : EngineState) : (s.setState v).views = s.views := rfl
@[simp] theorem State.setState_diag (v : EngineState) : (s.setState v).diag = s.diag := rfl
@[simp] theorem State.setState_x (v : EngineState) : (s.setState v).x = s.x := rfl
@[simp] theorem State.setState_y (v : EngineState) : (s.setState v).y = s.y := rfl
@[simp] theorem State.setState_blobLen (v : EngineState) : (s.setState v).blobLen = s.blobLen := rfl
@[simp] theorem State.setState_offsets (v : EngineState) : (s.setState v).offsets = s.offsets := rfl
@[simp] theorem State.setState_mem (v : EngineState) : (s.setState v).mem = s.mem := rfl
@[simp] theorem State.setState_events (v : EngineState) : (s.setState v).events = s.events := rfl
@[simp] theorem State.setState_reply (v : EngineState) : (s.setState v).reply = s.reply := rfl
@[simp] theorem State.setState_draws (v : EngineState) : (s.setState v).draws = s.draws := rfl
@[simp] theorem State.setState_view (v : EngineState) (q : Region) : (s.setState v).view q = s.view q := rfl
@[simp] theorem State.setState_offset (v : EngineState) (q : Region) : (s.setState v).offset q = s.offset q := rfl

/-! ### setView -/

@[simp] theorem State.setView_state (r : Region) (v : View) : (s.setView r v).state = s.state := rfl
@[simp] theorem State.setView_views (r : Region) (v : View) : (s.setView r v).views = s.views.set r v := rfl
@[simp] theorem State.setView_diag (r : Region) (v : View) : (s.setView r v).diag = s.diag := rfl
@[simp] theorem State.setView_x (r : Region) (v : View) : (s.setView r v).x = s.x := rfl
@[simp] theorem State.setView_y (r : Region) (v : View) : (s.setView r v).y = s.y := rfl
@[simp] theorem State.setView_blobLen (r : Region) (v : View) : (s.setView r v).blobLen = s.blobLen := rfl
@[simp] theorem State.setView_offsets (r : Region) (v : View) : (s.setView r v).offsets = s.offsets := rfl
@[simp] theorem State.setView_mem (r : Region) (v : View) : (s.setView r v).mem = s.mem := rfl
@[simp] theorem State.setView_events (r : Region) (v : View) : (s.setView r v).events = s.events := rfl
@[simp] theorem State.setView_reply (r : Region) (v : View) : (s.setView r v).reply = s.reply := rfl
@[simp] theorem State.setView_draws (r : Region) (v : View) : (s.setView r v).draws = s.draws := rfl
@[simp] theorem State.setView_offset (r : Region) (v : View) (q : Region) : (s.setView r v).offset q = s.offset q := rfl

/-! ### log -/

@[simp] theorem State.log_state (d : DiagRecord) : (s.log d).state = s.state := rfl
@[simp] theorem State.log_views (d : DiagRecord) : (s.log d).views = s.views := rfl
@[simp] theorem State.log_diag (d : DiagRecord) : (s.log d).diag = s.diag ++ [d] := rfl
@[simp] theorem State.log_x (d : DiagRecord) : (s.log d).x = s.x := rfl
@[simp] theorem State.log_y (d : DiagRecord) : (s.log d).y = s.y := rfl
@[simp] theorem State.log_blobLen (d : DiagRecord) : (s.log d).blobLen = s.blobLen := rfl
@[simp] theorem State.log_offsets (d : DiagRecord) : (s.log d).offsets = s.offsets := rfl
@[simp] theorem State.log_mem (d : DiagRecord) : (s.log d).mem = s.mem := rfl
@[simp] theorem State.log_events (d : DiagRecord) : (s.log d).events = s.events := rfl
@[simp] theorem State.log_reply (d : DiagRecord) : (s.log d).reply = s.reply := rfl
@[simp] theorem State.log_draws (d : DiagRecord) : (s.log d).draws = s.draws := rfl
@[simp] theorem State.log_view (d : DiagRecord) (q : Region) : (s.log d).view q = s.view q := rfl
@[simp] theorem State.log_offset (d : DiagRecord) (q : Region) : (s.log d).offset q = s.offset q := rfl

/-! ### setX -/

@[simp] theorem State.setX_state (v : F32) : (s.setX v).state = s.state := rfl
@[simp] theorem State.setX_views (v : F32) : (s.setX v).views = s.views := rfl
@[simp] theorem State.setX_diag (v : F32) : (s.setX v).diag = s.diag := rfl
@[simp] theorem State.setX_x (v : F32) : (s.setX v).x = v := rfl
@[simp] theorem State.setX_y (v : F32) : (s.setX v).y = s.y := rfl
@[simp] theorem State.setX_blobLen (v : F32) : (s.setX v).blobLen = s.blobLen := rfl
@[simp] theorem State.setX_offsets (v : F32) : (s.setX v).offsets = s.offsets := rfl
@[simp] theorem State.setX_mem (v : F32) : (s.setX v).mem = s.mem := rfl
@[simp] theorem State.setX_events (v : F32) : (s.setX v).events = s.events := rfl
@[simp] theorem State.setX_reply (v : F32) : (s.setX v).reply = s.reply := rfl
@[simp] theorem State.setX_draws (v : F32) : (s.setX v).draws = s.draws := rfl
@[simp] theorem State.setX_view (v : F32) (q : Region) : (s.setX v).view q = s.view q := rfl
@[simp] theorem State.setX_offset (v : F32) (q : Region) : (s.setX v).offset q = s.offset q := rfl

/-! ### setY -/

@[simp] theorem State.setY_state (v : F32) : (s.setY v).state = s.state := rfl
@[simp] theorem State.setY_views (v : F32) : (s.setY v).views = s.views := rfl
@[simp] theorem State.setY_diag (v : F32) : (s.setY v).diag = s.diag := rfl
@[simp] theorem State.setY_x (v : F32) : (s.setY v).x = s.x := rfl
@[simp] theorem State.setY_y (v : F32) : (s.setY v).y = v := rfl
@[simp] theorem State.setY_blobLen (v : F32) : (s.setY v).blobLen = s.blobLen := rfl
@[simp] theorem State.setY_offsets (v : F32) : (s.setY v).offsets = s.offsets := rfl
@[simp] theorem State.setY_mem (v : F32) : (s.setY v).mem = s.mem := rfl
@[simp] theorem State.setY_events (v : F32) : (s.setY v).events = s.events := rfl
@[simp] theorem State.setY_reply (v : F32) : (s.setY v).reply = s.reply := rfl
@[simp] theorem State.setY_draws (v : F32) : (s.setY v).draws = s.draws := rfl
@[simp] theorem State.setY_view (v : F32) (q : Region) : (s.setY v).view q = s.view q := rfl
@[simp] theorem State.setY_offset (v : F32) (q : Region) : (s.setY v).offset q = s.offset q := rfl

/-! ### setEvents -/

@[simp] theorem State.setEvents_state (l : List HostEvent) : (s.setEvents l).state = s.state := rfl
@[simp] theorem State.setEvents_views (l : List HostEvent) : (s.setEvents l).views = s.views := rfl
@[simp] theorem State.setEvents_diag (l : List HostEvent) : (s.setEvents l).diag = s.diag := rfl
@[simp] theorem State.setEvents_x (l : List HostEvent) : (s.setEvents l).x = s.x := rfl
@[simp] theorem State.setEvents_y (l : List HostEvent) : (s.setEvents l).y = s.y := rfl
@[simp] theorem State.setEvents_blobLen (l : List HostEvent) : (s.setEvents l).blobLen = s.blobLen := rfl
@[simp] theorem State.setEvents_offsets (l : List HostEvent) : (s.setEvents l).offsets = s.offsets := rfl
@[simp] theorem State.setEvents_mem (l : List HostEvent) : (s.setEvents l).mem = s.mem := rfl
@[simp] theorem State.setEvents_events (l : List HostEvent) : (s.setEvents l).events = l := rfl
@[simp] theorem State.setEvents_reply (l : List HostEvent) : (s.setEvents l).reply = s.reply := rfl
@[simp] theorem State.setEvents_draws (l : List HostEvent) : (s.setEvents l).draws = s.draws := rfl
@[simp] theorem State.setEvents_view (l : List HostEvent) (q : Region) : (s.setEvents l).view q = s.view q := rfl
@[simp] theorem State.setEvents_offset (l : List HostEvent) (q : Region) : (s.setEvents l).offset q = s.offset q := rfl

/-! ### answer -/

@[simp] theorem State.answer_state (r : Reply) : (s.answer r).state = s.state := rfl
@[simp] theorem State.answer_views (r : Reply) : (s.answer r).views = s.views := rfl
@[simp] theorem State.answer_diag (r : Reply) : (s.answer r).diag = s.diag := rfl
@[simp] theorem State.answer_x (r : Reply) : (s.answer r).x = s.x := rfl
@[simp] theorem State.answer_y (r : Reply) : (s.answer r).y = s.y := rfl
@[simp] theorem State.answer_blobLen (r : Reply) : (s.answer r).blobLen = s.blobLen := rfl
@[simp] theorem State.answer_offsets (r : Reply) : (s.answer r).offsets = s.offsets := rfl
@[simp] theorem State.answer_mem (r : Reply) : (s.answer r).mem = s.mem := rfl
@[simp] theorem State.answer_events (r : Reply) : (s.answer r).events = s.events := rfl
@[simp] theorem State.answer_reply (r : Reply) : (s.answer r).reply = some r := rfl
@[simp] theorem State.answer_draws (r : Reply) : (s.answer r).draws = s.draws := rfl
@[simp] theorem State.answer_view (r : Reply) (q : Region) : (s.answer r).view q = s.view q := rfl
@[simp] theorem State.answer_offset (r : Reply) (q : Region) : (s.answer r).offset q = s.offset q := rfl

/-! ### takeDraws -/

@[simp] theorem State.takeDraws_state (n : Nat) : (s.takeDraws n).state = s.state := rfl
@[simp] theorem State.takeDraws_views (n : Nat) : (s.takeDraws n).views = s.views := rfl
@[simp] theorem State.takeDraws_diag (n : Nat) : (s.takeDraws n).diag = s.diag := rfl
@[simp] theorem State.takeDraws_x (n : Nat) : (s.takeDraws n).x = s.x := rfl
@[simp] theorem State.takeDraws_y (n : Nat) : (s.takeDraws n).y = s.y := rfl
@[simp] theorem State.takeDraws_blobLen (n : Nat) : (s.takeDraws n).blobLen = s.blobLen := rfl
@[simp] theorem State.takeDraws_offsets (n : Nat) : (s.takeDraws n).offsets = s.offsets := rfl
@[simp] theorem State.takeDraws_mem (n : Nat) : (s.takeDraws n).mem = s.mem := rfl
@[simp] theorem State.takeDraws_events (n : Nat) : (s.takeDraws n).events = s.events := rfl
@[simp] theorem State.takeDraws_reply (n : Nat) : (s.takeDraws n).reply = s.reply := rfl
@[simp] theorem State.takeDraws_draws (n : Nat) : (s.takeDraws n).draws = s.draws + n := rfl
@[simp] theorem State.takeDraws_view (n : Nat) (q : Region) : (s.takeDraws n).view q = s.view q := rfl
@[simp] theorem State.takeDraws_offset (n : Nat) (q : Region) : (s.takeDraws n).offset q = s.offset q := rfl

/-! ### raiseOutOfBounds -/

@[simp] theorem State.raiseOutOfBounds_state (r : Region) : (s.raiseOutOfBounds r).state = s.state := rfl
@[simp] theorem State.raiseOutOfBounds_views (r : Region) : (s.raiseOutOfBounds r).views = s.views := rfl
@[simp] theorem State.raiseOutOfBounds_diag (r : Region) : (s.raiseOutOfBounds r).diag = s.diag ++ [.oob r (s.offset r) (regionSize r) s.blobLen] := rfl
@[simp] theorem State.raiseOutOfBounds_x (r : Region) : (s.raiseOutOfBounds r).x = s.x := rfl
@[simp] theorem State.raiseOutOfBounds_y (r : Region) : (s.raiseOutOfBounds r).y = s.y := rfl
@[simp] theorem State.raiseOutOfBounds_blobLen (r : Region) : (s.raiseOutOfBounds r).blobLen = s.blobLen := rfl
@[simp] theorem State.raiseOutOfBounds_offsets (r : Region) : (s.raiseOutOfBounds r).offsets = s.offsets := rfl
@[simp] theorem State.raiseOutOfBounds_mem (r : Region) : (s.raiseOutOfBounds r).mem = s.mem := rfl
@[simp] theorem State.raiseOutOfBounds_events (r : Region) : (s.raiseOutOfBounds r).events = s.events := rfl
@[simp] theorem State.raiseOutOfBounds_reply (r : Region) : (s.raiseOutOfBounds r).reply = s.reply := rfl
@[simp] theorem State.raiseOutOfBounds_draws (r : Region) : (s.raiseOutOfBounds r).draws = s.draws := rfl
@[simp] theorem State.raiseOutOfBounds_view (r : Region) (q : Region) : (s.raiseOutOfBounds r).view q = s.view q := rfl
@[simp] theorem State.raiseOutOfBounds_offset (r : Region) (q : Region) : (s.raiseOutOfBounds r).offset q = s.offset q := rfl

/-! ### Each update as a record. Rewriting with these, where a proof would say rfl, keeps the value a variable: the kernel
then never unfolds a binary32 computation to compare two states. -/

theorem State.setState_eq (v : EngineState) : s.setState v = { s with state := v } := rfl
theorem State.setView_eq (r : Region) (v : View) : s.setView r v = { s with views := s.views.set r v } := rfl
theorem State.log_eq (d : DiagRecord) : s.log d = { s with diag := s.diag ++ [d] } := rfl
theorem State.setX_eq (v : F32) : s.setX v = { s with x := v } := rfl
theorem State.setY_eq (v : F32) : s.setY v = { s with y := v } := rfl
theorem State.setEvents_eq (l : List HostEvent) : s.setEvents l = { s with events := l } := rfl
theorem State.answer_eq (r : Reply) : s.answer r = { s with reply := some r } := rfl
theorem State.takeDraws_eq (n : Nat) : s.takeDraws n = { s with draws := s.draws + n } := rfl

end Sys2Proof.Machine
end

