-- ==== Sys2Proof/Laws/Ops.lean ====
section
/-! SUPPORT. What the shared operations do, said once each: regions, `int8`, byte memory, loops and element reads. -/

namespace Sys2Proof.Machine

/-! ### Regions -/

theorem mem_regionsInOrder (r : Region) : r ∈ regionsInOrder := by
  cases r <;> decide

theorem forall_region {p : Region → Prop} : (∀ r ∈ regionsInOrder, p r) ↔ ∀ r, p r :=
  ⟨fun h r => h r (mem_regionsInOrder r), fun h r _ => h r⟩

theorem regionIndex_injective : Function.Injective regionIndex := by
  intro a b h
  cases a <;> cases b <;> first | rfl | cases h

@[simp] theorem PerRegion.get_set_same {α : Type} (p : PerRegion α) (r : Region) (a : α) : (p.set r a).get r = a := by
  cases r <;> rfl

theorem PerRegion.get_set_ne {α : Type} (p : PerRegion α) {r q : Region} (a : α) (h : q ≠ r) :
    (p.set r a).get q = p.get q := by
  cases r <;> cases q <;> first | rfl | exact absurd rfl h

@[simp] theorem PerRegion.get_all {α : Type} (a : α) (r : Region) : (PerRegion.all a).get r = a := by
  cases r <;> rfl

theorem PerRegion.ext_get {α : Type} {p q : PerRegion α} (h : ∀ r, p.get r = q.get r) : p = q := by
  have h1 := h .w1
  have h2 := h .b1
  have h3 := h .w2
  have h4 := h .b2
  have h5 := h .wout
  have h6 := h .bout
  cases p
  cases q
  simp_all [PerRegion.get]

@[simp] theorem State.setView_view_same (s : State) (r : Region) (v : View) : (s.setView r v).view r = v := by
  simp [State.view]

theorem State.setView_view_ne (s : State) {r q : Region} (v : View) (h : q ≠ r) : (s.setView r v).view q = s.view q := by
  simp [State.view, PerRegion.get_set_ne _ _ h]

/-! ### `int8` -/

theorem sext8_eq_toInt (b : Byte) : sext8 b = b.toInt := by
  rw [sext8, BitVec.toInt_eq_toNat_cond]
  split <;> split <;> omega

theorem sext8_range (b : Byte) : -128 ≤ sext8 b ∧ sext8 b ≤ 127 := by
  have := b.isLt
  rw [sext8]
  split <;> omega

theorem sext8_toCode {v : Int} (lo : -128 ≤ v) (hi : v ≤ 127) : sext8 (toCode v) = v := by
  have h0 : 0 ≤ v % 256 := Int.emod_nonneg v (by decide)
  have h1 : v % 256 < 256 := Int.emod_lt_of_pos v (by decide)
  have hn : (toCode v).toNat = (v % 256).toNat := by
    rw [toCode, BitVec.toNat_ofNat]
    omega
  rw [sext8, hn]
  split <;> omega

/-! ### Byte memory -/

theorem Memory.wfFrom_mono {m : Memory} {lo hi : Nat} (h : lo ≤ hi) (hw : Memory.wfFrom hi m = true) :
    Memory.wfFrom lo m = true := by
  cases m with
  | nil => rfl
  | cons c rest =>
    simp only [Memory.wfFrom, Bool.and_eq_true, decide_eq_true_eq] at hw ⊢
    exact ⟨⟨h.trans hw.1.1, hw.1.2⟩, hw.2⟩

/-- Below the least listed address every byte is unlisted. -/
theorem Memory.read_below {m : Memory} {lo k : Nat} (hw : Memory.wfFrom lo m = true) (hk : k < lo) :
    Memory.read m k = Memory.unlisted := by
  induction m generalizing lo with
  | nil => rfl
  | cons c rest ih =>
    simp only [Memory.wfFrom, Bool.and_eq_true, decide_eq_true_eq] at hw
    rw [Memory.read, if_neg (by omega)]
    exact ih hw.2 (by omega)

theorem Memory.write_keeps_wfFrom {m : Memory} {lo k : Nat} (v : Byte) (hw : Memory.wfFrom lo m = true) (hk : lo ≤ k) :
    Memory.wfFrom lo (Memory.write m k v) = true := by
  induction m generalizing lo with
  | nil =>
    by_cases hv : v = Memory.unlisted <;> simp [Memory.write, hv, Memory.wfFrom, hk]
  | cons c rest ih =>
    obtain ⟨a, b⟩ := c
    have hc := hw
    simp only [Memory.wfFrom, Bool.and_eq_true, decide_eq_true_eq] at hc
    obtain ⟨⟨hlo, hb⟩, hrest⟩ := hc
    rw [Memory.write]
    by_cases hka : k < a
    · by_cases hv : v = Memory.unlisted
      · simp [hka, hv, hw]
      · simp [hka, hv, Memory.wfFrom, hk, hb, hrest]
    · by_cases hea : k = a
      · subst hea
        by_cases hv : v = Memory.unlisted
        · simpa [hv] using Memory.wfFrom_mono (by omega) hrest
        · simp [hv, Memory.wfFrom, hk, hrest]
      · simp [hka, hea, Memory.wfFrom, hlo, hb, ih hrest (by omega)]

/-- A write keeps the canonical form. -/
theorem Memory.write_keeps_wf {m : Memory} (k : Nat) (v : Byte) (hw : Memory.wf m = true) :
    Memory.wf (Memory.write m k v) = true :=
  Memory.write_keeps_wfFrom v hw (Nat.zero_le k)

/-- Loading bytes keeps the canonical form. -/
theorem Memory.load_keeps_wf (bytes : List Byte) {m : Memory} (start : Nat) (hw : Memory.wf m = true) :
    Memory.wf (Memory.load m start bytes) = true := by
  induction bytes generalizing m start with
  | nil => exact hw
  | cons b rest ih => exact ih (start + 1) (Memory.write_keeps_wf start b hw)

theorem Memory.read_write_from {m : Memory} {lo k : Nat} (v : Byte) (j : Nat) (hw : Memory.wfFrom lo m = true) :
    Memory.read (Memory.write m k v) j = if j = k then v else Memory.read m j := by
  induction m generalizing lo with
  | nil =>
    by_cases hv : v = Memory.unlisted
    · simp [Memory.write, hv, Memory.read]
    · by_cases hj : k = j
      · simp [Memory.write, hv, Memory.read, hj]
      · simp [Memory.write, hv, Memory.read, hj, Ne.symm hj]
  | cons c rest ih =>
    obtain ⟨a, b⟩ := c
    have hc := hw
    simp only [Memory.wfFrom, Bool.and_eq_true, decide_eq_true_eq] at hc
    obtain ⟨⟨_, _⟩, hrest⟩ := hc
    rw [Memory.write]
    by_cases hka : k < a
    · have hunl : Memory.read ((a, b) :: rest) k = Memory.unlisted := by
        rw [Memory.read, if_neg (by omega)]
        exact Memory.read_below hrest (by omega)
      by_cases hv : v = Memory.unlisted
      · by_cases hj : j = k
        · simp [hka, hv, hj, hunl]
        · simp [hka, hv, hj]
      · by_cases hj : j = k
        · simp [hka, hv, hj, Memory.read]
        · simp [hka, hv, hj, Memory.read, Ne.symm hj]
    · by_cases hea : k = a
      · subst hea
        by_cases hv : v = Memory.unlisted
        · by_cases hj : j = k
          · simp [hv, hj, Memory.read_below hrest (Nat.lt_succ_self k)]
          · simp [hv, hj, Memory.read, Ne.symm hj]
        · by_cases hj : j = k
          · simp [hv, hj, Memory.read]
          · simp [hv, hj, Memory.read, Ne.symm hj]
      · simp only [hka, hea, if_false, Memory.read, ih hrest]
        by_cases haj : a = j
        · have hjk : ¬ j = k := by omega
          simp [haj, hjk]
        · simp [haj]

/-- A read after a write: the written byte there, every other byte as before. -/
theorem Memory.read_write {m : Memory} (k : Nat) (v : Byte) (j : Nat) (hw : Memory.wf m = true) :
    Memory.read (Memory.write m k v) j = if j = k then v else Memory.read m j :=
  Memory.read_write_from v j hw

/-! ### Loops and element reads -/

/-- A loop whose every turn succeeds gives the list of the turns' values. -/
theorem collect_ok {α : Type} {f : Nat → Except Fault α} {g : Nat → α} {start count : Nat}
    (h : ∀ i, start ≤ i → i < start + count → f i = .ok (g i)) :
    collect f start count = .ok ((List.range' start count).map g) := by
  induction count generalizing start with
  | zero => rfl
  | succ n ih =>
    have hrest := ih (start := start + 1) (fun i hi hj => h i (by omega) (by omega))
    simp [collect, h start (Nat.le_refl _) (by omega), hrest, List.range'_succ]

/-- If a loop gives a list, the list has one value for each turn. -/
theorem collect_length {α : Type} {f : Nat → Except Fault α} {start count : Nat} {l : List α}
    (h : collect f start count = .ok l) : l.length = count := by
  induction count generalizing start l with
  | zero =>
    cases h
    rfl
  | succ n ih =>
    rw [collect] at h
    cases hf : f start with
    | error e => simp [hf] at h
    | ok a =>
      cases hr : collect f (start + 1) n with
      | error e => simp [hf, hr] at h
      | ok rest =>
        simp only [hf, hr, Except.ok.injEq] at h
        subst h
        simp [ih hr]

/-- Two loops whose turns agree agree. -/
theorem collect_congr {α : Type} {f g : Nat → Except Fault α} {start count : Nat}
    (h : ∀ i, start ≤ i → i < start + count → f i = g i) : collect f start count = collect g start count := by
  induction count generalizing start with
  | zero => rfl
  | succ n ih =>
    rw [collect, collect, h start (by omega) (by omega), ih (fun i lo hi => h i (by omega) (by omega))]

theorem memRead_ok {s : State} {a : Nat} (h : a < s.blobLen.toNat) : memRead s a = .ok (Memory.read s.mem a) := by
  rw [memRead, if_pos h]

/-- An element of a view that is resolved inside the blob is the byte at its offset. -/
theorem elem_ok {s : State} {r : Region} {base len : Word} {k : Nat} (hv : s.view r = .resolved base len)
    (hk : k < len.toNat) (hb : base.toNat + len.toNat ≤ s.blobLen.toNat) :
    elem s r k = .ok (Memory.read s.mem (base.toNat + k)) := by
  rw [elem, hv]
  simp only [hk, if_true]
  exact memRead_ok (by omega)

theorem elem_unresolved {s : State} {r : Region} (k : Nat) (hv : s.view r = .unresolved) :
    elem s r k = .error (.readThroughUnresolvedView r) := by
  rw [elem, hv]

/-- `answering` reaches a state only with the value it answers. -/
theorem answering_next {s t : State} {r : Except Fault Reply} (h : answering s r = .next t) :
    ∃ v, r = .ok v ∧ t = s.answer v := by
  cases r with
  | error e => cases h
  | ok v =>
    cases h
    exact ⟨v, rfl, rfl⟩

/-! ### What QUANTIZE leaves of the state -/

theorem quantize_some {x : F32} {q : Code} (s : State) (h : quantize32 x = some q) : quantize x s = (q, s) := by
  rw [quantize, h]

theorem quantize_none {x : F32} (s : State) (h : quantize32 x = none) :
    quantize x s = (Config.freeCode s.draws, s.takeDraws 1) := by
  rw [quantize, h]

/-- QUANTIZE changes nothing but the count of draws. -/
theorem quantize_state (x : F32) (s : State) : (quantize x s).2 = s ∨ (quantize x s).2 = s.takeDraws 1 := by
  cases h : quantize32 x with
  | some q => exact .inl (by rw [quantize_some s h])
  | none => exact .inr (by rw [quantize_none s h])

end Sys2Proof.Machine
end

