-- ==== Sys2Proof/Laws/Float.lean ====
section
/-! SUPPORT. Small lemmas of the binary32 operations and of the three functions built on them. -/

namespace Sys2Proof.Machine

/-- Examining the pattern first changes nothing. -/
theorem onPattern_eq {w : Nat} {α : Type} (b : BitVec w) (f : BitVec w → α) : onPattern b f = f b := by
  rw [onPattern]
  split <;> rfl

/-- QUANTIZE32 without the examination of its pattern. -/
theorem quantize32_eq (x : F32) :
    quantize32 x = (Fp.trunc (quantizeT x)).map (fun q => toCode (quantizeClamp q)) := by
  rw [quantize32, onPattern_eq]

/-- DEQUANTIZE without the examination of its pattern. -/
theorem dequantize_eq (c : Code) :
    dequantize c =
      Fp.encode (Fp.clamp (Fp.ofInt (-1)) (Fp.ofInt 1) (Fp.mul (Fp.ofInt (sext8 c)) (Fp.decode 0x3C000000))) := by
  rw [dequantize, onPattern_eq]

/-! ### Constants -/

theorem ofInt_zero : Fp.ofInt 0 = .fin false 0 := by decide +kernel
theorem ofInt_one : Fp.ofInt 1 = .fin false Fp.unit := by decide +kernel
theorem ofInt_two : Fp.ofInt 2 = .fin false (2 * Fp.unit) := by decide +kernel
theorem ofInt_128 : Fp.ofInt 128 = .fin false (128 * Fp.unit) := by decide +kernel
theorem ofInt_255 : Fp.ofInt 255 = .fin false (255 * Fp.unit) := by decide +kernel

/-- The constants of the quantizer have the patterns R181 gives them. -/
theorem constant_patterns :
    Fp.encode (Fp.ofInt 255) = 0x437F0000 ∧ Fp.encode (Fp.ofInt 128) = 0x43000000 ∧
    Fp.encode (Fp.ofInt 1) = 0x3F800000 := by decide +kernel

theorem decode_twoPi : Fp.decode twoPi = .fin false (0xC90FDB * 2 ^ 128) := by decide +kernel

/-! ### Rounding -/

/-- A tie goes to the even quotient, and anything else to the nearer one: the two bounds every use needs. -/
theorem roundHalfEven_bounds (num den : Nat) :
    num / den ≤ roundHalfEven num den ∧ roundHalfEven num den ≤ num / den + 1 := by
  simp only [roundHalfEven]
  split_ifs <;> omega

/-- A multiple of the divisor is rounded to its quotient. -/
theorem roundHalfEven_exact (q den : Nat) (hd : 0 < den) : roundHalfEven (q * den) den = q := by
  rw [roundHalfEven]
  simp [Nat.mul_div_cancel _ hd, hd]

/-- Rounding to a quotient is monotone in the numerator. -/
theorem roundHalfEven_mono {a b : Nat} (den : Nat) (h : a ≤ b) : roundHalfEven a den ≤ roundHalfEven b den := by
  have ha := Nat.div_add_mod a den
  have hb := Nat.div_add_mod b den
  have hq : a / den ≤ b / den := Nat.div_le_div_right h
  rcases Nat.lt_or_eq_of_le hq with hlt | heq
  · exact ((roundHalfEven_bounds a den).2.trans hlt).trans (roundHalfEven_bounds b den).1
  · have hr : a % den ≤ b % den := by
      rw [heq] at ha
      omega
    simp only [roundHalfEven, heq]
    split_ifs <;> omega

/-- How far `roundMag` shifts: a quotient of 24 bits or fewer not at all, a longer one to exactly 24 bits. -/
theorem shift_cases (n : Nat) :
    (n < 2 ^ 24 ∧ Nat.log2 n - 23 = 0) ∨
    (2 ^ (23 + (Nat.log2 n - 23)) ≤ n ∧ n < 2 ^ (24 + (Nat.log2 n - 23))) := by
  by_cases h : n < 2 ^ 24
  · by_cases h0 : n = 0
    · subst h0
      exact .inl ⟨h, by decide⟩
    · exact .inl ⟨h, by have := (Nat.log2_lt h0).2 h; omega⟩
  · have h0 : n ≠ 0 := by
      rintro rfl
      exact h (by decide)
    have h24 : 24 ≤ Nat.log2 n := (Nat.le_log2 h0).2 (by omega)
    refine .inr ⟨?_, ?_⟩
    · rw [show 23 + (Nat.log2 n - 23) = Nat.log2 n by omega]
      exact Nat.log2_self_le h0
    · rw [show 24 + (Nat.log2 n - 23) = Nat.log2 n + 1 by omega]
      exact Nat.lt_log2_self

/-- A magnitude never rounds beyond 24 bits at its own shift. -/
theorem roundMag_le (num den : Nat) : roundMag num den ≤ 2 ^ (24 + (Nat.log2 (num / den) - 23)) := by
  have hs := shift_cases (num / den)
  rw [roundMag]
  generalize Nat.log2 (num / den) - 23 = k at hs ⊢
  have hlt : num / den < 2 ^ (24 + k) := by
    rcases hs with ⟨h, rfl⟩ | ⟨_, h⟩
    · simpa using h
    · exact h
  have hq : num / (den * 2 ^ k) < 2 ^ 24 := by
    rw [← Nat.div_div_eq_div_mul, Nat.div_lt_iff_lt_mul (Nat.two_pow_pos k), ← pow_add]
    exact hlt
  have hb := (roundHalfEven_bounds num (den * 2 ^ k)).2
  rw [pow_add]
  exact Nat.mul_le_mul_right _ (by omega)

/-- A shifted magnitude keeps its top bit. -/
theorem le_roundMag {num den : Nat} (h : 0 < Nat.log2 (num / den) - 23) :
    2 ^ (23 + (Nat.log2 (num / den) - 23)) ≤ roundMag num den := by
  have hs := shift_cases (num / den)
  rw [roundMag]
  generalize Nat.log2 (num / den) - 23 = k at h hs ⊢
  have hge : 2 ^ (23 + k) ≤ num / den := by
    rcases hs with ⟨_, rfl⟩ | ⟨h', _⟩
    · omega
    · exact h'
  have hq : 2 ^ 23 ≤ num / (den * 2 ^ k) := by
    rw [← Nat.div_div_eq_div_mul, Nat.le_div_iff_mul_le (Nat.two_pow_pos k), ← pow_add]
    exact hge
  have hb := (roundHalfEven_bounds num (den * 2 ^ k)).1
  rw [pow_add]
  exact Nat.mul_le_mul_right _ (by omega)

/-- Rounding a magnitude is monotone in the numerator. -/
theorem roundMag_mono {a b : Nat} (den : Nat) (h : a ≤ b) : roundMag a den ≤ roundMag b den := by
  have hq : a / den ≤ b / den := Nat.div_le_div_right h
  have hk : Nat.log2 (a / den) - 23 ≤ Nat.log2 (b / den) - 23 := by
    by_cases h0 : a / den = 0
    · rw [h0]
      simp
    · have : Nat.log2 (a / den) ≤ Nat.log2 (b / den) :=
        (Nat.le_log2 (Nat.pos_iff_ne_zero.1 ((Nat.pos_of_ne_zero h0).trans_le hq))).2 ((Nat.log2_self_le h0).trans hq)
      omega
  rcases Nat.lt_or_eq_of_le hk with hlt | heq
  · refine (roundMag_le a den).trans (le_trans ?_ (le_roundMag (by omega)))
    exact Nat.pow_le_pow_right (by decide) (by omega)
  · rw [roundMag, roundMag]
    simp only [heq]
    exact Nat.mul_le_mul_right _ (roundHalfEven_mono _ h)

/-- A magnitude of at most 24 significant bits rounds to itself. -/
theorem roundMag_exact {sig k den : Nat} (hd : 0 < den) (hs : sig < 2 ^ 24) :
    roundMag (sig * 2 ^ k * den) den = sig * 2 ^ k := by
  rw [roundMag]
  simp only [Nat.mul_div_cancel _ hd]
  have hc := shift_cases (sig * 2 ^ k)
  generalize Nat.log2 (sig * 2 ^ k) - 23 = j at hc ⊢
  have hj : j ≤ k := by
    rcases hc with ⟨_, rfl⟩ | ⟨h, _⟩
    · omega
    · by_contra hlt
      have h1 : sig * 2 ^ k < 2 ^ (24 + k) := by
        rw [pow_add]
        exact Nat.mul_lt_mul_of_pos_right hs (Nat.two_pow_pos k)
      have h2 : 2 ^ (24 + k) ≤ 2 ^ (23 + j) := Nat.pow_le_pow_right (by decide) (by omega)
      omega
  obtain ⟨d, rfl⟩ := Nat.exists_eq_add_of_le hj
  rw [show sig * 2 ^ (j + d) * den = sig * 2 ^ d * (den * 2 ^ j) by rw [pow_add]; ring,
    roundHalfEven_exact _ _ (Nat.mul_pos hd (Nat.two_pow_pos j)), pow_add]
  ring

/-! ### NaN -/

theorem decode_nan {x : F32} (h : isNaN x = true) : Fp.decode x = .nan := of_decide_eq_true h

theorem not_nan {x : F32} (h : isNaN x = false) : Fp.decode x ≠ .nan := of_decide_eq_false h

end Sys2Proof.Machine
end

