-- ==== Sys2Proof/Laws/PerInstr.lean ====
section
/-! SUPPORT. The statement made of every operation as syntax: which operations have a command word (30_encoding.md R80,
R93). -/

namespace Sys2Proof.Laws.CommandWord

/-- An operation has a command word exactly when it is one of the three commands, or a reserved word that is well
formed. -/
def Statement (i : Instr) : Prop :=
  (encode i).isSome = true ↔ i = .nop ∨ i = .init ∨ i = .run ∨ ∃ w, i = .reserved w ∧ i.WellFormed

theorem nop : Statement .nop := by simp [Statement, encode]
theorem init : Statement .init := by simp [Statement, encode]
theorem run : Statement .run := by simp [Statement, encode]

/-- The decoder's fields of a word and the ranges of R84 say the same. -/
theorem reserved_fields (w : Word) : (cmdZero w ≠ 0 ∨ cmdOp w = 3) ↔ isReservedWord w = true := by
  have hw := w.isLt
  have hz : (cmdZero w).toNat = w.toNat / 4 := by
    simp only [cmdZero, BitVec.extractLsb'_toNat, Nat.shiftRight_eq_div_pow]
    omega
  have ho : (cmdOp w).toNat = w.toNat % 4 := by
    simp [cmdOp, BitVec.extractLsb'_toNat]
  have hz0 : cmdZero w = 0 ↔ w.toNat / 4 = 0 := by rw [← BitVec.toNat_inj, hz]; rfl
  have ho3 : cmdOp w = 3 ↔ w.toNat % 4 = 3 := by rw [← BitVec.toNat_inj, ho]; rfl
  rw [Ne, hz0, ho3]
  simp only [Bool.or_eq_true, decide_eq_true_eq]
  omega

theorem reserved (w : Word) : Statement (.reserved w) := by
  simp only [Statement, encode, reduceCtorEq, false_or, Instr.reserved.injEq, exists_eq_left', Instr.WellFormed,
    Instr.wellFormed, ← reserved_fields w]
  split <;> simp_all

theorem valid (a b c : Word) : Statement (.valid a b c) := by simp [Statement, encode]
theorem resolve (r : Region) : Statement (.resolve r) := by simp [Statement, encode]
theorem mac (b : Code) (t : List (Code × Code)) : Statement (.mac b t) := by simp [Statement, encode]
theorem divt32 (a : Int) : Statement (.divt32 a) := by simp [Statement, encode]
theorem reluClamp (v : Int) : Statement (.reluClamp v) := by simp [Statement, encode]
theorem symClamp (v : Int) : Statement (.symClamp v) := by simp [Statement, encode]
theorem dense1 (q : Code) : Statement (.dense1 q) := by simp [Statement, encode]
theorem dense2 (l : List Code) : Statement (.dense2 l) := by simp [Statement, encode]
theorem denseOut (l : List Code) : Statement (.denseOut l) := by simp [Statement, encode]
theorem quantize (x : F32) : Statement (.quantize x) := by simp [Statement, encode]
theorem forward (q : Code) : Statement (.forward q) := by simp [Statement, encode]
theorem dequantize (c : Code) : Statement (.dequantize c) := by simp [Statement, encode]
theorem toPattern (y : F32) : Statement (.toPattern y) := by simp [Statement, encode]
theorem reset : Statement .reset := by simp [Statement, encode]

end Sys2Proof.Laws.CommandWord
end

