-- ==== Sys2Proof/Laws/Step.lean ====
section
/-! SUPPORT. What a step can be, and what each operation that reaches a state has done, said once each. -/

namespace Sys2Proof.Machine

/-- RESOLVE writes the one view and, where the check fails, raises the one error. -/
theorem resolve_cases (s : State) (r : Region) :
    (valid (s.offset r) (regionSize r) s.blobLen = true ∧
      resolve s r = s.setView r (.resolved (s.offset r) (regionSize r))) ∨
    (valid (s.offset r) (regionSize r) s.blobLen = false ∧
      resolve s r = (s.setView r .unresolved).raiseOutOfBounds r) := by
  cases h : valid (s.offset r) (regionSize r) s.blobLen with
  | true => exact .inl ⟨rfl, by simp [resolve, h]⟩
  | false => exact .inr ⟨rfl, by simp [resolve, h]⟩

/-- RUN reaches a state in which only Y and the count of draws can differ. -/
theorem execRun_cases {s t : State} (h : execRun s = .next t) :
    (s.state ≠ .ready ∧ t = s.setY 0) ∨
    (s.state = .ready ∧ ∃ outQ, forward s (quantize s.x s).1 = .ok outQ ∧
      t = (quantize s.x s).2.setY (dequantize outQ)) := by
  rw [execRun] at h
  split at h
  case isTrue hr =>
    refine .inr ⟨hr, ?_⟩
    rw [runPipeline] at h
    split at h
    · cases h
    · rename_i outQ ho
      cases h
      exact ⟨outQ, ho, rfl⟩
  case isFalse hr =>
    cases h
    exact .inl ⟨hr, rfl⟩

/-- The three answers of the decoder. -/
theorem decode_cases (w : Word) : decode w = .nop ∨ decode w = .init ∨ decode w = .run ∨ decode w = .reserved w := by
  rw [decode]
  split
  · split <;> simp
  · simp

/-- INIT has one command word. -/
theorem decode_init_iff (w : Word) : decode w = .init ↔ w = 1 := by
  constructor
  · intro h
    rw [decode] at h
    split at h
    · rename_i hz
      have hz' : w.toNat / 4 = 0 := by
        have := congrArg BitVec.toNat hz
        simp only [cmdZero, BitVec.extractLsb'_toNat, Nat.shiftRight_eq_div_pow] at this
        have hw := w.isLt
        rw [Nat.mod_eq_of_lt (by omega)] at this
        exact this
      have ho : (cmdOp w).toNat = w.toNat % 4 := by simp [cmdOp, BitVec.extractLsb'_toNat]
      rw [ho] at h
      split at h <;> try cases h
      rename_i h1
      apply BitVec.eq_of_toNat_eq
      show w.toNat = 1
      omega
    · cases h
  · rintro rfl; decide

/-- A step with nothing pending changes nothing. -/
theorem step_idle {s : State} (h : s.events = []) : step s = .next s := by
  simp [step, serveOldest, h]

/-- A step with an event pending takes it and serves it. -/
theorem step_serves {s : State} {e : HostEvent} {rest : List HostEvent} (h : s.events = e :: rest) :
    step s = serve e (s.setEvents rest) := by
  simp [step, serveOldest, h]

/-- A step that reaches a state serves RESET, serves a write of INIT to CMD, or leaves STATE, the views, DIAG and the build's
parameters. -/
theorem step_cases {s t : State} (h : step s = .next t) :
    (∃ rest, s.events = .reset :: rest ∧ exec .reset (s.setEvents rest) = .next t) ∨
    (∃ rest, s.events = .writeReg 15 1 :: rest ∧ execInit (s.setEvents rest) = .next t) ∨
    (t = { s with events := t.events, x := t.x, y := t.y, reply := t.reply, draws := t.draws } ∧
      t.events = s.events.tail ∧
      (∀ es, s.events ≠ .reset :: es) ∧ ∀ es, s.events ≠ .writeReg 15 1 :: es) := by
  cases he : s.events with
  | nil => rw [step_idle he] at h; cases h; exact .inr (.inr ⟨rfl, by simp [he], by simp, by simp⟩)
  | cons e rest =>
    rw [step_serves he] at h
    cases e with
    | reset => exact .inl ⟨rest, rfl, h⟩
    | readDiag => cases h; exact .inr (.inr ⟨rfl, rfl, by simp, by simp⟩)
    | readReg n =>
      rw [serve, serveRead] at h
      split at h <;> cases h
      exact .inr (.inr ⟨rfl, rfl, by simp, by simp⟩)
    | pattern v =>
      have h' : execToPattern v (s.setEvents rest) = .next t := h
      rw [execToPattern] at h'
      split at h' <;> cases h' <;> exact .inr (.inr ⟨rfl, rfl, by simp, by simp⟩)
    | writeReg n v =>
      rw [serve, serveWrite] at h
      split at h
      case isTrue hn =>
        have hn : n = 15 := hn
        subst hn
        rcases decode_cases v with hd | hd | hd | hd <;> rw [hd] at h
        · have : v ≠ 1 := fun hv => by rw [(decode_init_iff v).2 hv] at hd; cases hd
          cases h; exact .inr (.inr ⟨rfl, rfl, by simp, by simpa using this⟩)
        · exact .inr (.inl ⟨rest, by rw [(decode_init_iff v).1 hd], h⟩)
        · have : v ≠ 1 := fun hv => by rw [(decode_init_iff v).2 hv] at hd; cases hd
          obtain ⟨_, rfl⟩ | ⟨_, o, _, rfl⟩ := execRun_cases h
          · exact .inr (.inr ⟨rfl, rfl, by simp, by simpa using this⟩)
          · refine .inr (.inr ?_)
            rcases quantize_state (s.setEvents rest).x (s.setEvents rest) with e | e <;> rw [e] <;>
              exact ⟨by simp only [State.setY_eq, State.takeDraws_eq, State.setEvents], rfl, by simp, by simpa using this⟩
        · cases h
      case isFalse hn =>
        have hn : n ≠ 15 := hn
        rw [writeRegister] at h
        split at h
        · cases h; exact .inr (.inr ⟨rfl, rfl, by simp, by simp [hn]⟩)
        · split at h <;> cases h

end Sys2Proof.Machine
end

