-- ==== Sys2Proof/Tests/Slice0.lean ====
section
/-! SUPPORT. Tests on single steps, with their expected values from 95_test_vectors.md; ill-formed terms; and, for every
statement with hypotheses, a state and operands that meet them (the theorems named witness_...). -/

namespace Sys2Proof.Tests

-- One test after another: many kernel evaluations at once each take a thread of their own.
set_option Elab.async false

open Sys2Proof.Machine Sys2Proof.Reference

/-! ### Well-formedness: a term that each check refuses -/

theorem test_illformed_reserved : (Instr.reserved 1).wellFormed = false := by decide
theorem test_illformed_mac : (Instr.mac 0 [(1, 2), (3, 4)]).wellFormed = false := by decide
theorem test_illformed_dense2_length : (Instr.dense2 [1, 2, 3]).wellFormed = false := by decide
theorem test_illformed_dense2_range : (Instr.dense2 (List.replicate 16 0x80)).wellFormed = false := by decide
theorem test_illformed_denseOut : (Instr.denseOut []).wellFormed = false := by decide
theorem test_wellformed : (Instr.mac 0 [(1, 2)]).wellFormed = true ∧
    (Instr.denseOut (List.replicate 16 0x7F)).wellFormed = true := by decide

/-! ### Decoding: the words of 30_encoding.md R82 and R84, bit by bit (bits 31:2 zero, op in bits 1:0) -/

theorem test_decode_nop : decode 0b00000000000000000000000000000000 = .nop := by decide
theorem test_decode_init : decode 0b00000000000000000000000000000001 = .init := by decide
theorem test_decode_run : decode 0b00000000000000000000000000000010 = .run := by decide
theorem test_decode_reserved_op : decode 0b00000000000000000000000000000011 = .reserved 3 := by decide
theorem test_decode_reserved_zero_field : decode 0b01000000000000000000000000000001 = .reserved 0x40000001 := by decide
theorem test_decode_table_short_row : decodeTableWord 8 3 = some (.reserved 3) := by decide
theorem test_encode_internal : encode (.quantize 0) = none := by decide

/-! ### States to test on -/

/-- Bytes from address 0 on, in the canonical form of the blob. -/
def cells (bytes : List Byte) : Memory := ((List.range bytes.length).zip bytes).filter (fun c => c.2 ≠ 0)

/-- The views INIT leaves when all six regions of the PACKED layout lie in the blob. -/
def packedViews : PerRegion View :=
  ⟨.resolved 0 16, .resolved 16 16, .resolved 32 256, .resolved 288 16, .resolved 304 16, .resolved 320 1⟩

/-- Blob B of 95_test_vectors.md, by its formulas. -/
def blobB : List Byte :=
  (List.range 16).map (fun i => BitVec.ofInt 8 (8 * (i : Int) - 60)) ++
  (List.range 16).map (fun i => BitVec.ofInt 8 (4 * (i : Int) - 20)) ++
  (List.range 256).map (fun k => BitVec.ofInt 8 ((((7 * (k / 16) + 3 * (k % 16)) % 31 : Nat) : Int) - 15)) ++
  (List.range 16).map (fun i => BitVec.ofInt 8 (5 * (i : Int) - 40)) ++
  ([16, -12, 16, -12, 20, -8, 20, -8, 24, -4, 24, -4, 28, 0, 28, 0, -128].map (fun z => BitVec.ofInt 8 z))

/-- Blob B in the PACKED layout, Ready. -/
def readyB : State :=
  { State.reset with offsets := packed, blobLen := 321, mem := cells blobB, state := .ready, views := packedViews }

/-- The truncated blob of program P3, just after reset. -/
def stateP3 : State := { State.reset with offsets := packed, blobLen := 320, mem := cells (blobB.take 320) }

/-- A blob with few bytes that are not 0, Ready: w1[0] = 64, b1[0] = 4, w2[16] = -32, w2[32] = 32, b2[1] = 127,
wout[1] = -127, wout[2] = 3, bout = 5. -/
def readyC : State :=
  { State.reset with offsets := packed, blobLen := 321, state := .ready, views := packedViews
                     mem := [(0, 64), (16, 4), (48, 0xE0), (64, 32), (289, 127), (305, 0x81), (306, 3), (320, 5)] }

/-- The zero blob of program P1, just after reset. -/
def stateZ : State := { State.reset with offsets := packed, blobLen := 321 }

/-- The zero blob, Ready. -/
def readyZ : State := { stateZ with state := .ready, views := packedViews }

/-- The byte listed for blob B at 0x020 and at 0x140 (95_test_vectors.md). -/
theorem test_blobB_bytes : blobB.getD 0x20 0 = 0xF1 ∧ blobB.getD 0x140 0 = 0x80 ∧ blobB.length = 321 := by
  decide +kernel

/-- The blobs are in canonical form, and a byte reads back. -/
theorem test_blobB_canonical : readyB.mem.wf = true ∧ readyC.mem.wf = true ∧ Memory.read readyB.mem 0x11F = 0x0B := by
  decide +kernel
theorem test_load : Memory.load [] 4 [1, 0, 2] = [(4, 1), (6, 2)] ∧ Memory.load [(4, 1)] 4 [0] = [] := by decide

/-! ### Bounds check, RESOLVE, INIT: T2.4, T2.5, T2.7, T2.12, T2.13 -/

theorem test_valid_no_wrap : (reached (exec (.valid 0xFFFFFFFF 1 0xFFFFFFFF) State.reset)).map State.reply =
    some (some (.flag false)) := by decide
theorem test_valid_top : (reached (exec (.valid 0xFFFFFFEF 16 0xFFFFFFFF) State.reset)).map State.reply =
    some (some (.flag true)) := by decide
theorem test_resolve_fails : (reached (exec (.resolve .bout) stateP3)).map (fun t => (t.view .bout, t.diag.map recordBits)) =
    some (.unresolved, [0x00000140000000010000014000000015]) := by decide +kernel
theorem test_resolve_succeeds : (reached (exec (.resolve .wout) stateP3)).map (fun t => (t.view .wout, t.diag)) =
    some (.resolved 304 16, []) := by decide +kernel
theorem test_init_truncated : (reached (exec .init stateP3)).map
    (fun t => (t.state, resBits t, t.diag.map recordBits)) =
    some (.partiallyResolved, 0x1F, [0x00000140000000010000014000000015]) := by decide +kernel
theorem test_init_overflow : (reached (exec .init { stateZ with offsets := { packed with w2 := 0xFFFFFF80 } })).map
    (fun t => (t.state, resBits t, t.diag.map recordBits)) =
    some (.partiallyResolved, 0x3B, [0x0000014100000100FFFFFF8000000009]) := by decide +kernel
theorem test_init_duplicate : (reached (exec .init readyZ)).map (fun t => (t.state, resBits t, t.diag.map recordBits)) =
    some (.ready, 0x3F, [2]) := by decide +kernel

/-! ### The dense unit: T3.2, T3.6, the DIVT32 list, the clamps -/

theorem test_mac_least_layer1 : (reached (exec (.mac 0x80 [(0x7F, 0x80)]) State.reset)).map State.reply =
    some (some (.number (-17280))) := by decide
theorem test_mac_greatest : (reached (exec (.mac 0x7F (List.replicate 16 (0x7F, 0x7F))) State.reset)).map State.reply =
    some (some (.number 259080)) := by decide
theorem test_divt32_toward_zero : [31, -31, -32, -33, -64, -756, 4121, -17280].map divt32 =
    [0, 0, -1, -1, -2, -23, 128, -540] := by decide
theorem test_reluClamp : [-1, 0, 127, 128, 543, -540].map reluClamp = [0, 0, 127, 127, 127, 0] := by decide
theorem test_symClamp : [-129, -128, 127, 128, -8160, 8096].map symClamp = [-128, -128, 127, 127, -128, 127] := by decide
theorem test_symClamp_code : (reached (exec (.symClamp (-129)) State.reset)).map State.reply =
    some (some (.code 0x80)) := by decide
theorem test_divt32_exec : (reached (exec (.divt32 (-756)) State.reset)).map State.reply =
    some (some (.number (-23))) := by decide
theorem test_reluClamp_exec : (reached (exec (.reluClamp 130) State.reset)).map State.reply =
    some (some (.code 127)) := by decide

/-! ### The stages on blob B: T3.15 (q = -6), T3.12, T3.11 -/

theorem test_dense1 : (reached (exec (.dense1 0xFA) readyB)).map State.reply =
    some (some (.codes [6, 5, 5, 4, 4, 3, 3, 2, 2, 1, 1, 0, 0, 0, 0, 0])) := by decide +kernel
theorem test_dense2_row15 : (unit2 readyB [6, 5, 5, 4, 4, 3, 3, 2, 2, 1, 1, 0, 0, 0, 0, 0] 15).toOption = some 11 := by
  decide +kernel
/-- By hand on blob C: unit 1 is (127*8 - 32*21)/32, unit 2 is 32*21/32. -/
theorem test_dense2 : (reached (exec (.dense2 (21 :: List.replicate 15 0)) readyC)).map State.reply =
    some (some (.codes (0 :: 10 :: 21 :: List.replicate 13 0))) := by decide +kernel
theorem test_denseOut : (reached (exec (.denseOut [0, 0, 0, 0, 0, 0, 0, 2, 0, 0, 1, 12, 7, 0, 4, 13]) readyB)).map State.reply =
    some (some (.code (BitVec.ofInt 8 (-23)))) := by decide +kernel
theorem test_denseOut_shape : exec (.denseOut [1]) readyC = .refused (.notSixteenCodes 1) := by rfl
/-- By hand on blob C with q = 10: layer 1 is 21, layer 2 is 0, 10, 21, and (5*8 - 127*10 + 3*21)/32 is -36. -/
theorem test_forward : (reached (exec (.forward 10) readyC)).map State.reply =
    some (some (.code (BitVec.ofInt 8 (-36)))) := by decide +kernel

/-- The three faults of an element read, as the first one each stage meets. -/
theorem test_stop_outside_blob : exec (.denseOut (List.replicate 16 0)) { readyC with blobLen := 320 } =
    .fault (.blobReadOutOfBounds 320) := by rfl
theorem test_stop_outside_view : firstFault { readyC with views := { packedViews with w2 := .resolved 32 255 } } reads2 =
    some (.elementOutsideView .w2 255) := by decide +kernel
theorem test_stop_forward : exec (.forward 3) { readyC with views := { packedViews with w1 := .unresolved } } =
    .fault (.readThroughUnresolvedView .w1) := by rfl

/-! ### QUANTIZE32: T4.6, T4.19, and the bits of each step of T4.9; DEQUANTIZE T5.2; TO_PATTERN T5.15, T5.11 -/

theorem test_quantize_one : quantize32 0x3F800000 = some (BitVec.ofInt 8 (-87)) := by decide +kernel
theorem test_quantize_below_twoPi : quantize32 0x40C90FDA = some 126 := by decide +kernel
theorem test_quantize_steps :
    let n := Fp.div (Fp.decode 0x40A00000) (Fp.decode twoPi)
    let u := Fp.mul n (Fp.ofInt 255)
    Fp.encode n = 0x3F4BB7E4 ∧ Fp.encode u = 0x434AEC2C ∧ Fp.encode (Fp.sub u (Fp.ofInt 128)) = 0x4295D858 := by
  decide +kernel
/-- A tie goes to the even significand (D7). -/
theorem test_round_ties : roundMag (2 ^ 24 + 1) 1 = 2 ^ 24 ∧ roundMag (2 ^ 24 + 3) 1 = 2 ^ 24 + 4 ∧ roundMag 3 2 = 2 := by
  decide +kernel
theorem test_quantize_infinities : quantize32 0x7F800000 = some 127 ∧ quantize32 0xFF800000 = some 0x80 := by
  decide +kernel
theorem test_dequantize : dequantize (BitVec.ofInt 8 (-23)) = 0xBE380000 ∧ dequantize 127 = 0x3F7E0000 := by
  decide +kernel
/-- The formula of R193 and R194 by hand for y = 0.99609375: v = 254.501953125, so 255 (log entry 25). -/
theorem test_toPattern_below_one : toPattern 0x3F7F0000 = some 255 := by decide +kernel
theorem test_toPattern : toPattern 0xBE380000 = some 105 ∧ toPattern 0x00000000 = some 128 := by decide +kernel

/-! ### RUN: T6.7, T6.12 and program P3; NOP, RESET, the reserved word of P7 -/

theorem test_run_degraded_nan : (reached (exec .run { initialise stateP3 with x := 0x7FC00000, y := 5 })).map
    (fun t => (t.y, t.draws)) = some (0, 0) := by decide +kernel
/-- By hand on blob C with q = 127: layer 1 is 127, layer 2 is 0, 0, 127, and (5*8 + 3*127)/32 is 13. -/
theorem test_step_run_twoPi : (reached (step (State.withFetchWord { readyC with x := 0x40C90FDB } 32 2))).map State.y =
    some 0x3DD00000 := by decide +kernel
theorem test_step_reserved : step (State.reset.withFetchWord 32 3) = .refused (.reservedCommandWord 3) := by rfl
theorem test_step_nop : step (State.reset.withFetchWord 32 0) = .next State.reset := by rfl
theorem test_step_reset : (reached (step { readyB with events := [.reset] })).map (fun t => (t.state, resBits t, t.diag)) =
    some (.uninitialized, 0, []) := by decide +kernel
theorem test_read_valid : (reached (step { initialise stateP3 with events := [.readReg 1] })).map State.reply =
    some (some (.word 0x1F)) := by decide +kernel
theorem test_write_x : (reached (step { State.reset with events := [.writeReg 16 7] })).map State.x = some 7 := by decide

/-! ### Witnesses: for every statement with hypotheses, inputs that meet them -/

/-- An outcome that reaches a state is that state. -/
theorem exec_of_reached {o : StepOutcome} {t : State} (h : reached o = some t) : o = .next t := by
  cases o <;> simp_all [reached]

theorem readyZ_views (r : Region) : readyZ.ViewReady r := by
  cases r <;> decide +kernel

theorem readyZ_zero (r : Region) (k : Nat) (_ : k < (regionSize r).toNat) : element readyZ r k = 0 := rfl

theorem witness_DecodeAndEncodeAgree : Instr.run.WellFormed ∧ encode .run = some 2 ∧
    (Instr.reserved 3).WellFormed ∧ encode (.reserved 3) = some 3 := by decide
theorem witness_ReservedWordsAreRefused :
    ((3 : Word).toNat % 4 = 3 ∨ 4 ≤ (3 : Word).toNat) ∧ ((4 : Word).toNat % 4 = 3 ∨ 4 ≤ (4 : Word).toNat) ∧
    { State.reset with events := [.writeReg 15 3] }.events = .writeReg 15 3 :: [] := by decide
theorem witness_StepRunsDecodedCommand :
    { State.reset with events := [.writeReg 15 2, .reset] }.events = .writeReg 15 2 :: [.reset] := rfl
theorem witness_StepServesHostEvents : State.reset.events = [] ∧
    { State.reset with events := [.reset] }.events = .reset :: [] ∧
    { State.reset with events := [.pattern 1] }.events = .pattern 1 :: [] ∧
    { State.reset with events := [.writeReg 16 1] }.events = .writeReg 16 1 :: [] ∧
    { State.reset with events := [.readDiag] }.events = .readDiag :: [] := ⟨rfl, rfl, rfl, rfl, rfl⟩
theorem witness_HostRegisterMap (n : Nat) : { State.reset with events := [.readReg n] }.events = .readReg n :: [] ∧
    { State.reset with events := [.writeReg n 1] }.events = .writeReg n 1 :: [] ∧
    3 + 2 * regionIndex .bout = 13 ∧ 4 + 2 * regionIndex .bout = 14 ∧ 18 ≤ 18 ∧ (14 < 15 ∨ 14 = 17) ∧
    (17 < 15 ∨ 17 = 17) := ⟨rfl, rfl, rfl, rfl, by decide, by decide, by decide⟩
theorem witness_ValidIsIntegerComparison : valid 320 1 321 = true ∧ (321 : Word).toNat ≤ (322 : Word).toNat := by decide
theorem witness_InitResolvesAllRegions : stateZ.state = .uninitialized ∧ readyZ.state ≠ .uninitialized := by decide

/-- A degraded machine whose host writes INIT. -/
def stateLost : State := { State.reset with state := .partiallyResolved, events := [.writeReg 15 1] }

theorem witness_DuplicateInitOnlyLogs : readyZ.state ≠ .uninitialized ∧
    stateLost.state = .partiallyResolved ∧ (∀ es, stateLost.events ≠ .reset :: es) ∧
    step stateLost = .next (stateLost.log .dupInit |>.setEvents []) :=
  ⟨by decide, rfl, by simp [stateLost], rfl⟩
theorem witness_InitTestableProperties :
    (stateZ.state = .uninitialized ∧ ∀ r ∈ regionsInOrder, stateZ.regionEnd r ≤ stateZ.blobLen.toNat) ∧
    (stateP3.state = .uninitialized ∧ stateP3.blobLen.toNat < stateP3.regionEnd .bout) ∧
    stateP3.blobLen.toNat + 1 = stateP3.regionEnd .bout ∧
    ∀ q ∈ regionsInOrder, q ≠ .bout → stateP3.regionEnd q < stateP3.regionEnd .bout := by decide +kernel
theorem witness_PackedLayoutOutcome : stateP3.state = .uninitialized ∧ stateP3.offsets = packed := ⟨rfl, rfl⟩
theorem witness_MacOrderUnobservable :
    List.Perm [((1 : Code), (2 : Code)), (3, 4)] [(3, 4), (1, 2)] := by decide
theorem witness_AccumulatorRanges : (List.replicate 16 ((0x80 : Code), (0x7F : Code))).length = 16 ∧
    ∀ t ∈ List.replicate 16 ((0x80 : Code), (0x7F : Code)), t.2.toNat ≤ 127 :=
  ⟨rfl, fun _ h => List.eq_of_mem_replicate h ▸ by decide⟩
theorem witness_Divt32TruncatesTowardZero : (-33 : Int) ≤ -32 ∧ (0 : Int) ≤ 31 ∧ (-1 : Int) < 0 := by decide
theorem witness_ReluClampSaturates : (-1 : Int) ≤ 0 ∧ (127 : Int) ≤ 128 := by decide
theorem witness_SymClampSaturates : (-129 : Int) ≤ -128 ∧ (127 : Int) ≤ 128 := by decide
theorem witness_TruncationDirectionVisibility : ((-4095 : Int) ≤ -4095 ∧ (-4095 : Int) ≤ -1 ∧ (-4095 : Int) % 32 ≠ 0) ∧
    ((-1 : Int) ≤ -1 ∧ (-1 : Int) % 32 ≠ 0) ∧ (-4096 : Int) < -4095 ∧ (0 : Int) ≤ 0 ∧ (-32 : Int) % 32 = 0 := by decide
theorem witness_QuotientAndClampCombined : (31 : Int) ≤ 31 ∧ (32 : Int) ≤ 4095 ∧ (4064 : Int) ≤ 4095 ∧
    (-4096 : Int) ≤ -4096 ∧ (-4127 : Int) ≤ -4127 := by decide
theorem witness_Dense1ComputesLayer : readyB.ViewReady .w1 ∧ readyB.ViewReady .b1 := by decide +kernel
theorem witness_Dense2ComputesLayer : (List.replicate 16 (3 : Code)).length = 16 ∧ readyB.ViewReady .w2 ∧
    readyB.ViewReady .b2 := by decide +kernel
theorem witness_DenseOutComputesUnit : (List.replicate 16 (3 : Code)).length = 16 ∧ readyB.ViewReady .wout ∧
    readyB.ViewReady .bout := by decide +kernel
theorem witness_StageStopsByName : stateZ.view .b1 = .unresolved ∧ stateZ.view .b2 = .unresolved ∧
    stateZ.view .bout = .unresolved ∧ (List.replicate 16 (3 : Code)).length = 16 ∧ [(3 : Code)].length ≠ 16 ∧ readyC.state = .ready := by decide
theorem witness_ZeroNetworkOutputsZero : (∀ r, readyZ.ViewReady r) ∧
    (∀ r k, k < (regionSize r).toNat → element readyZ r k = 0) ∧ (List.replicate 16 (3 : Code)).length = 16 :=
  ⟨readyZ_views, readyZ_zero, rfl⟩
theorem witness_ForwardComputesNetwork : ∀ r ∈ regionsInOrder, readyB.ViewReady r := by decide +kernel
theorem witness_QuantizeAnswersOnNumbers : isNaN 0x3F800000 = false ∧ isNaN 0x7F800000 = false ∧
    (0x3F800000 : F32).toNat < 0x40C90FDB ∧ f32Value 0x3F800000 = some 1 ∧
    ∀ k : Int, k ≠ 128 → quantizeError < |(1 : ℚ) / twoPiValue * 255 - k| := by
  refine ⟨by decide +kernel, by decide +kernel, by decide, by decide +kernel, fun k _ => ?_⟩
  have h : (1 : ℚ) / twoPiValue * 255 = 2 ^ 21 * 255 / 13176795 := by norm_num [twoPiValue]
  rw [h, quantizeError, lt_abs]
  rcases lt_or_ge k 41 with hk | hk
  · have : (k : ℚ) ≤ 40 := by exact_mod_cast Int.lt_add_one_iff.mp hk
    exact .inl (by norm_num; linarith)
  · have : (41 : ℚ) ≤ k := by exact_mod_cast hk
    exact .inr (by norm_num; linarith)
theorem witness_QuantizeNaNIsADraw : isNaN 0x7FC00000 = true ∧ isNaN 0xFF800001 = true := by decide +kernel
theorem witness_QuantizeClampsOutside : 0x80000000 ≤ (0x80000000 : F32).toNat ∧ (0xFF800000 : F32).toNat ≤ 0xFF800000 ∧
    0x40C90FDB ≤ (0x40C90FDB : F32).toNat ∧ (0x7F800000 : F32).toNat ≤ 0x7F800000 ∧
    (0x40C90FDA : F32).toNat < 0x40C90FDB := by decide
theorem witness_QuantizeIsMonotone : isNaN 0xFF800000 = false ∧ isNaN 0x3F800000 = false ∧
    Fp.lt (Fp.decode 0x3F800000) (Fp.decode 0xFF800000) = false := by decide +kernel
theorem witness_QuantizeTinyInputs : 2 ^ 131 ≤ 2 ^ 131 ∧ 2 ^ 131 < 2 ^ 131 + 1 ∧ 2 ^ 131 + 1 ≤ 2 ^ 149 ∧
    quantizeU 0x33C9D9B6 = .fin false (2 ^ 131) ∧
    quantizeU 0x33C9D9B7 = .fin false 2722259259886061366133723642610166267904 ∧
    2 ^ 131 < 2722259259886061366133723642610166267904 ∧ 2722259259886061366133723642610166267904 ≤ 2 ^ 149 ∧
    (0x33C9D9B6 : F32).toNat ≤ 0x33C9D9B6 ∧ 0x33C9D9B6 < (0x33C9D9B7 : F32).toNat ∧
    (0x3CC9D9E8 : F32).toNat ≤ 0x3CC9D9E8 := by decide +kernel
theorem witness_RoundingIsNearest : 0 < 3 ∧ 2 ^ 24 - 1 < 2 ^ 24 ∧ fpValue (.fin true 3) = some (-3 / 2 ^ 149) ∧
    fpValue (.fin false (2 ^ 24 + 1)) = some ((2 ^ 24 + 1) / 2 ^ 149) ∧ ((2 ^ 24 + 1) / 2 ^ 149 : ℚ) ≠ 0 ∧
    Fp.decode 0x80000000 = .fin true 0 ∧ isNaN 0xFF800000 = false ∧
    (2 ^ 24 + 1 : ℚ) = (2 * (2 ^ 23 : Nat) + 1) * 2 ^ 1 / 2 := by
  decide +kernel
theorem witness_RunNotReadyGivesZero : State.reset.state ≠ .ready := by decide
theorem witness_RunComputesPipeline : readyZ.state = .ready ∧ (∀ r, readyZ.ViewReady r) ∧ isNaN readyZ.x = false :=
  ⟨by decide +kernel, readyZ_views, by decide +kernel⟩

/-- The zero blob, Ready, with a NaN in X. -/
def readyNaN : State := readyZ.setX 0x7FC00000

theorem witness_RunOnNaNUsesADraw : readyNaN.state = .ready ∧ (∀ r, readyNaN.ViewReady r) ∧ isNaN readyNaN.x = true :=
  ⟨by decide +kernel, readyZ_views, by decide +kernel⟩
theorem witness_RunIsDeterministic : ∃ s', readyC.state = (readyC.log .dupInit).state ∧
    readyC.x = (readyC.log .dupInit).x ∧ (readyC.state = .ready → isNaN readyC.x = false) ∧
    (readyC.state = .ready → ∀ r k, k < (regionSize r).toNat → elem readyC r k = elem (readyC.log .dupInit) r k) ∧
    exec .run readyC = .next s' :=
  ⟨_, rfl, rfl, fun _ => by decide +kernel, fun _ _ _ _ => rfl, exec_of_reached (by decide +kernel : _ = some
    (readyC.setY (dequantize (BitVec.ofInt 8 (-121)))))⟩
theorem witness_RunCodomain : ∃ t, exec .run State.reset = .next t := ⟨_, rfl⟩
theorem witness_RunWritesOnlyY : ∃ t, exec .run State.reset = .next t ∧
    (isNaN State.reset.x = false ∨ State.reset.state ≠ .ready) := ⟨_, rfl, .inr (by decide)⟩
theorem witness_ZeroBlobRunsToZero : readyZ.state = .ready ∧ (∀ r, readyZ.ViewReady r) ∧
    ∀ r k, k < (regionSize r).toNat → element readyZ r k = 0 := ⟨by decide +kernel, readyZ_views, readyZ_zero⟩
theorem witness_ToPatternClampsAndIsMonotone : 0xBF800000 ≤ (0xBF800000 : F32).toNat ∧
    (0xFF800000 : F32).toNat ≤ 0xFF800000 ∧ 0x3F800000 ≤ (0x3F800000 : F32).toNat ∧
    (0x7F800000 : F32).toNat ≤ 0x7F800000 ∧ isNaN 0xBF800000 = false ∧ isNaN 0x3F800000 = false ∧
    Fp.lt (Fp.decode 0x3F800000) (Fp.decode 0xBF800000) = false := by decide +kernel
theorem witness_ToPatternNaNIsADraw : isNaN 0x7FC00000 = true := by decide +kernel
theorem readyZ_inv : readyZ.Inv := by decide +kernel
theorem witness_StepKeepsInvariant : ∃ t, (readyZ.setEvents [.readReg 0]).Inv ∧
    step (readyZ.setEvents [.readReg 0]) = .next t := ⟨_, by decide +kernel, rfl⟩
theorem witness_StepNeverFaults : (readyZ.setEvents [.writeReg 15 2]).Inv := by decide +kernel
theorem witness_ReadyMeansViewsInsideBlob : readyZ.Inv ∧ readyZ.state = .ready := ⟨readyZ_inv, by decide +kernel⟩
theorem witness_CommandsAlwaysComplete : (readyZ.setEvents [.writeReg 15 2]).Inv ∧ (2 : Word).toNat < 3 ∧
    (readyZ.setEvents [.writeReg 15 2]).events = .writeReg 15 2 :: [] := ⟨by decide +kernel, by decide, rfl⟩
theorem witness_StepKeepsBuildParameters : ∃ t, step (stateZ.setEvents [.writeReg 15 1]) = .next t := ⟨_, rfl⟩
theorem witness_StateTransitionRelation : (∃ t, step (stateZ.setEvents [.writeReg 15 1]) = .next t) ∧
    (∃ t, step (readyZ.setEvents [.writeReg 15 1]) = .next t) ∧ (∃ t, step (readyZ.setEvents [.reset]) = .next t) ∧
    ∃ t, step (readyZ.setEvents [.writeReg 15 0]) = .next t := ⟨⟨_, rfl⟩, ⟨_, rfl⟩, ⟨_, rfl⟩, ⟨_, rfl⟩⟩
theorem witness_ViewsReadOnlyAfterInit : ∃ t, (readyZ.setEvents [.writeReg 15 1]).state ≠ .uninitialized ∧
    (∀ es, (readyZ.setEvents [.writeReg 15 1]).events ≠ .reset :: es) ∧
    step (readyZ.setEvents [.writeReg 15 1]) = .next t :=
  ⟨readyZ.log .dupInit |>.setEvents [], by decide, by simp [State.setEvents], rfl⟩
theorem witness_DiagOnlyGrows : (∀ es, (readyZ.setEvents [.writeReg 15 1]).events ≠ .reset :: es) ∧
    (step (readyZ.setEvents [.writeReg 15 1]) = .next (readyZ.log .dupInit |>.setEvents [])) ∧
    (∀ es, (readyZ.setEvents [.writeReg 15 0]).events ≠ .writeReg 15 0x00000001 :: es) ∧
    step (readyZ.setEvents [.writeReg 15 0]) = .next (readyZ.setEvents []) :=
  ⟨by simp [State.setEvents], rfl, by simp [State.setEvents], rfl⟩
theorem witness_DegradedUntilReset : ∃ t, ((initialise stateP3).setEvents [.writeReg 15 1]).state = .partiallyResolved ∧
    HostEvent.reset ∉ ((initialise stateP3).setEvents [.writeReg 15 1]).events ∧
    Host.Core.run Sys2Proof.core 1 ((initialise stateP3).setEvents [.writeReg 15 1]) = .next t :=
  ⟨_, by decide +kernel, by decide, rfl⟩
theorem witness_ArithmeticLeavesEngine : exec (.divt32 (-33)) readyZ = .next (readyZ.answer (.number (-1))) ∧
    Instr.divt32 (-33) ≠ .nop ∧ Instr.divt32 (-33) ≠ .init ∧ Instr.divt32 (-33) ≠ .run ∧
    Instr.divt32 (-33) ≠ .reset ∧ ∀ r, Instr.divt32 (-33) ≠ .resolve r := ⟨rfl, by simp⟩

end Sys2Proof.Tests
end

section
/-! Proofs of the family 10_state.md. What INIT's bounds checks leave of the views and of `STATE` (R110 to R114), and from it
the transition relation of `STATE` (R21). -/

namespace Sys2Proof.Machine

/-! ### The bounds check and RESOLVE -/

/-- The 33-bit comparison is the comparison of the integers (R111). -/
theorem valid_iff (offset size blobLength : Word) :
    valid offset size blobLength = true ↔ offset.toNat + size.toNat ≤ blobLength.toNat := by
  have ho := offset.isLt
  have hz := size.isLt
  have hl := blobLength.isLt
  have hsum : (offset.setWidth 33 + size.setWidth 33 : BitVec 33).toNat = offset.toNat + size.toNat := by
    simp only [BitVec.toNat_add, BitVec.toNat_setWidth]
    omega
  have hcarry : (offset.setWidth 33 + size.setWidth 33 : BitVec 33).getLsbD 32 = true ↔
      2 ^ 32 ≤ offset.toNat + size.toNat := by
    rw [BitVec.getLsbD, hsum, Nat.testBit_eq_decide_div_mod_eq, decide_eq_true_iff]
    omega
  simp only [valid]
  split
  case isTrue hc =>
    have := hcarry.1 hc
    simp only [Bool.false_eq_true, false_iff]
    omega
  case isFalse hc =>
    have := mt hcarry.2 hc
    simp only [decide_eq_true_eq, BitVec.extractLsb'_toNat, hsum, Nat.shiftRight_zero]
    omega

/-- RESOLVE's check on a region of the state, as "the region lies inside the blob" (R58, R111). -/
theorem valid_region_iff (s : State) (r : Region) :
    valid (s.offset r) (regionSize r) s.blobLen = true ↔ s.regionEnd r ≤ s.blobLen.toNat :=
  valid_iff _ _ _

/-- RESOLVE writes the views and DIAG only. -/
theorem resolve_frame (s : State) (r : Region) :
    resolve s r = { s with views := (resolve s r).views, diag := (resolve s r).diag } := by
  obtain ⟨-, h⟩ | ⟨-, h⟩ := resolve_cases s r <;> rw [h] <;> rfl

theorem resolve_view_same (s : State) (r : Region) :
    (resolve s r).view r =
      if s.regionEnd r ≤ s.blobLen.toNat then .resolved (s.offset r) (regionSize r) else .unresolved := by
  simp only [← valid_region_iff]
  obtain ⟨hv, h⟩ | ⟨hv, h⟩ := resolve_cases s r <;> simp [h, hv]

theorem resolve_view_ne (s : State) {r q : Region} (hq : q ≠ r) : (resolve s r).view q = s.view q := by
  obtain ⟨-, h⟩ | ⟨-, h⟩ := resolve_cases s r <;> simp [h, State.setView_view_ne _ _ hq]

@[simp] theorem resolve_offset (s : State) (r q : Region) : (resolve s r).offset q = s.offset q := by
  rw [resolve_frame]; rfl

@[simp] theorem resolve_blobLen (s : State) (r : Region) : (resolve s r).blobLen = s.blobLen := by
  rw [resolve_frame]

@[simp] theorem resolve_regionEnd (s : State) (r q : Region) : (resolve s r).regionEnd q = s.regionEnd q := by
  simp [State.regionEnd]

@[simp] theorem State.setEvents_regionEnd (s : State) (l : List HostEvent) (r : Region) :
    (s.setEvents l).regionEnd r = s.regionEnd r := rfl

/-! ### The six RESOLVE steps (R113) -/

theorem foldl_resolve_view_of_notMem (s : State) {l : List Region} {r : Region} (hr : r ∉ l) :
    (l.foldl resolve s).view r = s.view r := by
  induction l generalizing s with
  | nil => rfl
  | cons q l ih =>
    obtain ⟨hq, hl⟩ := not_or.1 (mt List.mem_cons.2 hr)
    rw [List.foldl_cons, ih _ hl, resolve_view_ne s hq]

theorem foldl_resolve_view_of_mem (s : State) {l : List Region} {r : Region} (hr : r ∈ l) :
    (l.foldl resolve s).view r =
      if s.regionEnd r ≤ s.blobLen.toNat then .resolved (s.offset r) (regionSize r) else .unresolved := by
  induction l generalizing s with
  | nil => cases hr
  | cons q l ih =>
    rw [List.foldl_cons]
    by_cases hl : r ∈ l
    · simp [ih (resolve s q) hl]
    · obtain rfl : r = q := (List.mem_cons.1 hr).resolve_right hl
      rw [foldl_resolve_view_of_notMem _ hl, resolve_view_same]

/-- After the six RESOLVE steps each view says whether its region lies inside the blob, whatever it was before (R112). -/
theorem resolveAll_view (s : State) (r : Region) :
    (resolveAll s).view r =
      if s.regionEnd r ≤ s.blobLen.toNat then .resolved (s.offset r) (regionSize r) else .unresolved :=
  foldl_resolve_view_of_mem s (mem_regionsInOrder r)

theorem allResolved_resolveAll_iff (s : State) :
    allResolved (resolveAll s) = true ↔ ∀ r ∈ regionsInOrder, s.regionEnd r ≤ s.blobLen.toNat := by
  have hres (r : Region) : ((resolveAll s).view r).isResolved = true ↔ s.regionEnd r ≤ s.blobLen.toNat := by
    rw [resolveAll_view]
    split <;> simp [View.isResolved, *]
  simp only [allResolved, List.all_eq_true, hres]

/-! ### `STATE` after INIT (R114, R115), and after any step (R21) -/

theorem initialise_state (s : State) :
    (initialise s).state =
      if ∀ r ∈ regionsInOrder, s.regionEnd r ≤ s.blobLen.toNat then .ready else .partiallyResolved := by
  simp only [initialise, State.setState_state, allResolved_resolveAll_iff]

theorem execInit_state {s t : State} (h : execInit s = .next t) :
    t.state =
      if s.state = .uninitialized then
        (if ∀ r ∈ regionsInOrder, s.regionEnd r ≤ s.blobLen.toNat then .ready else .partiallyResolved)
      else s.state := by
  rw [execInit] at h
  cases h
  split
  · exact initialise_state s
  · rfl

/-- Settles O56: `step_cases` leaves three kinds of step, RESET, a write of INIT, and those that keep `STATE`. -/
theorem stateTransitionRelation : Obligations.StateTransitionRelation := by
  intro s t h
  obtain ⟨rest, he, hreset⟩ | ⟨rest, he, hinit⟩ | ⟨hframe, -, hnoReset, hnoInit⟩ := step_cases h
  · rw [he]
    cases hreset
    rfl
  · rw [he]
    have hstate := execInit_state hinit
    simp only [State.setEvents_regionEnd, State.setEvents_state, State.setEvents_blobLen] at hstate
    exact hstate
  · have hkeep : t.state = s.state := by rw [hframe]
    split
    next es he => exact absurd he (hnoReset es)
    next es he => exact absurd he (hnoInit es)
    next => exact hkeep

end Sys2Proof.Machine
end

section
/-! Proofs of the family 40_bounds_resolver.md. RESOLVE as a record update (R112), the two outcomes of INIT (R114, R115) with
the testable properties that follow (R116), and what a step leaves once INIT has run (R115, R118). -/

namespace Sys2Proof.Machine

/-! ### RESOLVE writes one view (R112) -/

theorem resolve_eq_ite (s : State) (r : Region) :
    resolve s r =
      if s.regionEnd r ≤ s.blobLen.toNat then
        { s with views := s.views.set r (.resolved (s.offset r) (regionSize r)) }
      else { s with views := s.views.set r .unresolved
                    diag := s.diag ++ [.oob r (s.offset r) (regionSize r) s.blobLen] } := by
  obtain ⟨hv, h⟩ | ⟨hv, h⟩ := resolve_cases s r
  · rw [h, if_pos ((valid_region_iff s r).1 hv)]
    rfl
  · have hout : ¬ s.regionEnd r ≤ s.blobLen.toNat := fun hin => by simp [(valid_region_iff s r).2 hin] at hv
    rw [h, if_neg hout]
    rfl

/-- Settles O13: `resolve_eq_ite`, and the two laws of an update of one region. -/
theorem resolveWritesOneView : Obligations.ResolveWritesOneView := by
  intro s r
  refine ⟨congrArg Host.Outcome.next (resolve_eq_ite s r), fun v => ⟨?_, fun q hq => ?_⟩⟩
  · exact PerRegion.get_set_same _ _ _
  · exact PerRegion.get_set_ne _ _ hq

/-! ### The two outcomes of INIT -/

theorem exec_init_of_uninitialized {s : State} (h : s.state = .uninitialized) :
    exec .init s = .next (initialise s) :=
  congrArg Host.Outcome.next (if_pos h)

theorem exec_init_of_ne_uninitialized {s : State} (h : s.state ≠ .uninitialized) :
    exec .init s = .next (s.log .dupInit) :=
  congrArg Host.Outcome.next (if_neg h)

/-- The last write of INIT, to `STATE`, leaves the views as the six RESOLVE steps made them. -/
theorem initialise_view (s : State) (r : Region) :
    (initialise s).view r =
      if s.regionEnd r ≤ s.blobLen.toNat then .resolved (s.offset r) (regionSize r) else .unresolved :=
  resolveAll_view s r

theorem initialise_view_of_lt {s : State} {r : Region} (h : s.blobLen.toNat < s.regionEnd r) :
    (initialise s).view r = .unresolved := by
  rw [initialise_view, if_neg (Nat.not_le.2 h)]

theorem initialise_view_isResolved {s : State} {r : Region} (h : s.regionEnd r ≤ s.blobLen.toNat) :
    ((initialise s).view r).isResolved = true := by
  rw [initialise_view, if_pos h]
  rfl

theorem initialise_state_of_lt {s : State} {r : Region} (h : s.blobLen.toNat < s.regionEnd r) :
    (initialise s).state = .partiallyResolved := by
  rw [initialise_state, if_neg fun hall => Nat.not_le.2 h (hall r (mem_regionsInOrder r))]

theorem initialise_state_ne_uninitialized (s : State) : (initialise s).state ≠ .uninitialized := by
  rw [initialise_state]
  split <;> simp

/-- Settles O16: each property reads off `initialise_view` and `initialise_state`; a second INIT finds `STATE` already out of
`Uninitialized`, whichever outcome the first had. -/
theorem initTestableProperties : Obligations.InitTestableProperties := by
  refine ⟨fun s hu hall => ?ready, fun s r hu hr => ?truncated, fun s => ?second, fun s r hu hlen hmax => ?oneShort⟩
  case ready =>
    refine ⟨_, exec_init_of_uninitialized hu, ?_⟩
    rw [initialise_state, if_pos fun r _ => hall r]
  case truncated =>
    exact ⟨_, exec_init_of_uninitialized hu, initialise_view_of_lt hr, initialise_state_of_lt hr⟩
  case second =>
    by_cases hu : s.state = .uninitialized
    · exact ⟨_, _, exec_init_of_uninitialized hu,
        exec_init_of_ne_uninitialized (initialise_state_ne_uninitialized s), rfl, rfl⟩
    · have hlogged : (s.log .dupInit).state ≠ .uninitialized := hu
      exact ⟨_, _, exec_init_of_ne_uninitialized hu, exec_init_of_ne_uninitialized hlogged, rfl, rfl⟩
  case oneShort =>
    refine ⟨_, exec_init_of_uninitialized hu, initialise_view_of_lt (by omega), fun q hq => ?_⟩
    have := hmax q hq
    exact initialise_view_isResolved (by omega)

/-! ### Steps once INIT has run -/

/-- Out of `Uninitialized` no event but RESET writes `STATE` or a view: the one other event that could, a write of INIT, only
logs (R115, R118). -/
theorem step_keeps_state_and_views {s t : State} (hs : s.state ≠ .uninitialized)
    (hreset : ∀ es, s.events ≠ .reset :: es) (h : step s = .next t) : t.state = s.state ∧ t.views = s.views := by
  obtain ⟨rest, he, -⟩ | ⟨rest, -, hinit⟩ | ⟨hframe, -⟩ := step_cases h
  · exact absurd he (hreset rest)
  · have hs' : (s.setEvents rest).state ≠ .uninitialized := hs
    have hlog : Host.Outcome.next ((s.setEvents rest).log .dupInit) = .next t :=
      (exec_init_of_ne_uninitialized hs').symm.trans hinit
    cases hlog
    exact ⟨rfl, rfl⟩
  · rw [hframe]
    exact ⟨rfl, rfl⟩

/-- Settles O15. -/
theorem duplicateInitOnlyLogs : Obligations.DuplicateInitOnlyLogs := by
  refine ⟨fun s hs => exec_init_of_ne_uninitialized hs, fun s t hp hreset h => ?_⟩
  have hs : s.state ≠ .uninitialized := by simp [hp]
  exact (step_keeps_state_and_views hs hreset h).1.trans hp

/-- Settles O57. -/
theorem viewsReadOnlyAfterInit : Obligations.ViewsReadOnlyAfterInit :=
  fun _ _ hs hreset h => (step_keeps_state_and_views hs hreset h).2

end Sys2Proof.Machine
end

section
/-! Proofs of the family 41_dense_layer.md. What a unit computes, as the reference formula over the integers (R141 to R147),
then the element reads of a region that lies inside the blob (R53), and from both the three stages and FORWARD (R148 to R150,
R186). -/

namespace Sys2Proof.Machine

open Reference

/-! ### `int8` values -/

theorem toInt_range (c : Code) : -128 ≤ c.toInt ∧ c.toInt ≤ 127 := by
  rw [← sext8_eq_toInt]
  exact sext8_range c

theorem toInt_toCode {v : Int} (lo : -128 ≤ v) (hi : v ≤ 127) : (toCode v).toInt = v := by
  rw [← sext8_eq_toInt, sext8_toCode lo hi]

/-- A product of two `int8` values: the extremes are at corners of the square, `-128 * 127` and `-128 * -128` (R142). -/
theorem toInt_mul_toInt_range (a b : Code) : -16256 ≤ a.toInt * b.toInt ∧ a.toInt * b.toInt ≤ 16384 := by
  obtain ⟨halo, hahi⟩ := toInt_range a
  obtain ⟨hblo, hbhi⟩ := toInt_range b
  constructor
  · nlinarith [mul_nonneg (sub_nonneg.2 halo) (sub_nonneg.2 hblo), mul_nonneg (sub_nonneg.2 hahi) (sub_nonneg.2 hbhi)]
  · nlinarith [mul_nonneg (sub_nonneg.2 halo) (sub_nonneg.2 hbhi), mul_nonneg (sub_nonneg.2 hahi) (sub_nonneg.2 hblo)]

/-! ### The unit: MAC, DIVT32 and the two clamps -/

theorem foldl_add_eq_add_sum {α : Type} (f : α → Int) (l : List α) (a : Int) :
    l.foldl (fun acc t => acc + f t) a = a + (l.map f).sum := by
  induction l generalizing a with
  | nil => simp
  | cons t l ih => simp [ih, add_assoc]

/-- MAC has no order and no width: it is the sum of its terms over the integers (R141, R142). -/
theorem mac_eq_sum (bias : Code) (terms : List (Code × Code)) :
    mac bias terms = bias.toInt * 8 + (terms.map (fun t => t.1.toInt * t.2.toInt)).sum := by
  simp only [mac, foldl_add_eq_add_sum, sext8_eq_toInt]

theorem divt32_eq_tdiv (a : Int) : divt32 a = a.tdiv 32 := by
  rw [divt32]
  split
  case isTrue h => rw [Int.tdiv_eq_ediv_of_nonneg h]
  case isFalse h => rw [← Int.tdiv_eq_ediv_of_nonneg (by omega), Int.neg_tdiv, neg_neg]

theorem reluClamp_eq_relu (v : Int) : reluClamp v = relu v := by
  rw [reluClamp, relu]
  split_ifs <;> omega

theorem symClamp_eq_saturate (v : Int) : symClamp v = saturate v := by
  rw [symClamp, saturate]
  split_ifs <;> omega

theorem toInt_toCode_reluClamp (v : Int) : (toCode (reluClamp v)).toInt = reluClamp v := by
  rw [reluClamp_eq_relu, relu]
  exact toInt_toCode (by omega) (by omega)

theorem toInt_toCode_symClamp (v : Int) : (toCode (symClamp v)).toInt = symClamp v := by
  rw [symClamp_eq_saturate, saturate]
  exact toInt_toCode (by omega) (by omega)

theorem hiddenUnit_toInt (bias : Code) (terms : List (Code × Code)) :
    (hiddenUnit bias terms).toInt =
      relu ((bias.toInt * 8 + (terms.map (fun t => t.1.toInt * t.2.toInt)).sum).tdiv 32) := by
  rw [hiddenUnit, toInt_toCode_reluClamp, reluClamp_eq_relu, divt32_eq_tdiv, mac_eq_sum]

theorem outputUnit_toInt (bias : Code) (terms : List (Code × Code)) :
    (outputUnit bias terms).toInt =
      saturate ((bias.toInt * 8 + (terms.map (fun t => t.1.toInt * t.2.toInt)).sum).tdiv 32) := by
  rw [outputUnit, toInt_toCode_symClamp, symClamp_eq_saturate, divt32_eq_tdiv, mac_eq_sum]

/-- Settles O18: the fold of MAC is a sum, and `int8` values bound its terms. -/
theorem macIsExactSum : Obligations.MacIsExactSum := by
  refine ⟨fun bias terms s => ?_, toInt_mul_toInt_range, fun a => ?_⟩
  · rw [← mac_eq_sum]
    rfl
  · have := toInt_range a
    omega

/-- Settles O22: the clamp's value fits in `int8`, so its code loses nothing; as `max 0 (min 127 v)` it is monotone and
idempotent. -/
theorem reluClampSaturates : Obligations.ReluClampSaturates := by
  refine ⟨fun v s => ⟨toCode (reluClamp v), rfl, toInt_toCode_reluClamp v⟩, fun v w h => ?monotone, fun v => ?idempotent⟩
  case monotone =>
    rw [reluClamp_eq_relu, reluClamp_eq_relu]
    exact max_le_max_left 0 (min_le_min_left 127 h)
  case idempotent =>
    simp only [reluClamp_eq_relu, relu]
    omega

/-- Settles O23, by the same argument for `max (-128) (min 127 v)`. -/
theorem symClampSaturates : Obligations.SymClampSaturates := by
  refine ⟨fun v s => ⟨toCode (symClamp v), rfl, toInt_toCode_symClamp v⟩, fun v w h => ?monotone, fun v => ?idempotent⟩
  case monotone =>
    rw [symClamp_eq_saturate, symClamp_eq_saturate]
    exact max_le_max_left (-128) (min_le_min_left 127 h)
  case idempotent =>
    simp only [symClamp_eq_saturate, saturate]
    omega

/-! ### Element reads of a region inside the blob (R53, R61) -/

/-- The byte that `element` gives the signed value of. -/
def elementByte (s : State) (r : Region) (k : Nat) : Code := Memory.read s.mem ((s.offset r).toNat + k)

theorem elementByte_toInt (s : State) (r : Region) (k : Nat) : (elementByte s r k).toInt = element s r k := rfl

theorem State.ViewReady.elem_eq {s : State} {r : Region} (h : s.ViewReady r) {k : Nat} (hk : k < (regionSize r).toNat) :
    elem s r k = .ok (elementByte s r k) :=
  elem_ok h.1 hk h.2

theorem State.ViewReady.elems_eq {s : State} {r : Region} (h : s.ViewReady r) {start count : Nat}
    (hend : start + count ≤ (regionSize r).toNat) :
    elems s r start count = .ok ((List.range' start count).map (elementByte s r)) :=
  collect_ok fun _ _ hi => h.elem_eq (by omega)

/-- The terms of a unit, a row of consecutive elements against a list of codes, sum to the reference's indexed sum. -/
theorem sum_elementByte_row (s : State) (r : Region) (start : Nat) {l : List Code} {n : Nat} (hl : l.length = n) :
    ((((List.range' start n).map (elementByte s r)).zip l).map (fun t => t.1.toInt * t.2.toInt)).sum =
      ∑ j ∈ Finset.range n, element s r (start + j) * (l.getD j 0).toInt := by
  subst hl
  induction l generalizing start with
  | nil => rfl
  | cons c l ih =>
    rw [List.length_cons, List.range'_succ, List.map_cons, List.zip_cons_cons, List.map_cons, List.sum_cons, ih,
      Finset.sum_range_succ', add_comm]
    simp only [List.getD_cons_succ, List.getD_cons_zero, elementByte_toInt, add_zero, add_assoc start,
      add_comm 1]

/-! ### The units and stages against the reference -/

/-- If every turn of a loop gives a code of the value `g i`, the loop gives the list of them. -/
theorem collect_computes {f : Nat → Except Fault Code} {g : Nat → Int} {n : Nat}
    (h : ∀ i, i < n → ∃ c, f i = .ok c ∧ c.toInt = g i) :
    ∃ l, collect f 0 n = .ok l ∧ l.length = n ∧ ∀ i, i < n → (l.getD i 0).toInt = g i := by
  choose! c hok hval using h
  refine ⟨_, collect_ok fun i _ hi => hok i (by omega), by simp, fun i hi => ?_⟩
  simp [hi, hval]

theorem unit1_computes {s : State} (q : Code) {i : Nat} (hw : s.ViewReady .w1) (hb : s.ViewReady .b1) (hi : i < 16) :
    ∃ c, unit1 s q i = .ok c ∧ c.toInt = layer1 s q.toInt i := by
  refine ⟨hiddenUnit (elementByte s .b1 i) [(elementByte s .w1 i, q)], ?_, ?_⟩
  · simp only [unit1, hb.elem_eq hi, hw.elem_eq hi]
  · simp [hiddenUnit_toInt, layer1, elementByte_toInt]

theorem unit2_computes {s : State} {l1 : List Code} {i : Nat} (hl : l1.length = 16) (hw : s.ViewReady .w2)
    (hb : s.ViewReady .b2) (hi : i < 16) :
    ∃ c, unit2 s l1 i = .ok c ∧ c.toInt = layer2 s (fun j => (l1.getD j 0).toInt) i := by
  have hrow : 16 * i + 16 ≤ (regionSize .w2).toNat := by
    change 16 * i + 16 ≤ 256
    omega
  refine ⟨hiddenUnit (elementByte s .b2 i) (((List.range' (16 * i) 16).map (elementByte s .w2)).zip l1), ?_, ?_⟩
  · simp only [unit2, hb.elem_eq hi, hw.elems_eq hrow]
  · rw [hiddenUnit_toInt, sum_elementByte_row s .w2 _ hl, layer2, elementByte_toInt, mul_comm 16 i]

theorem dense1_computes {s : State} (q : Code) (hw : s.ViewReady .w1) (hb : s.ViewReady .b1) :
    ∃ l, dense1 s q = .ok l ∧ l.length = 16 ∧ ∀ i, i < 16 → (l.getD i 0).toInt = layer1 s q.toInt i :=
  collect_computes fun _ => unit1_computes q hw hb

theorem dense2_computes {s : State} {l1 : List Code} (hl : l1.length = 16) (hw : s.ViewReady .w2)
    (hb : s.ViewReady .b2) :
    ∃ l, dense2 s l1 = .ok l ∧ l.length = 16 ∧
      ∀ i, i < 16 → (l.getD i 0).toInt = layer2 s (fun j => (l1.getD j 0).toInt) i :=
  collect_computes fun _ => unit2_computes hl hw hb

theorem denseOut_computes {s : State} {l2 : List Code} (hl : l2.length = 16) (hw : s.ViewReady .wout)
    (hb : s.ViewReady .bout) :
    ∃ c, denseOut s l2 = .ok c ∧ c.toInt = output s (fun j => (l2.getD j 0).toInt) := by
  refine ⟨outputUnit (elementByte s .bout 0) (((List.range' 0 16).map (elementByte s .wout)).zip l2), ?_, ?_⟩
  · simp only [denseOut, hb.elem_eq (k := 0) (by decide), hw.elems_eq (start := 0) (count := 16) (by decide)]
  · simp only [outputUnit_toInt, sum_elementByte_row s .wout _ hl, output, elementByte_toInt, zero_add]

/-- The reference's layers look at 16 inputs only. -/
theorem layer2_congr (s : State) {f g : Nat → Int} (h : ∀ j, j < 16 → f j = g j) (i : Nat) :
    layer2 s f i = layer2 s g i := by
  rw [layer2, layer2, Finset.sum_congr rfl fun j hj => by rw [h j (Finset.mem_range.1 hj)]]

theorem output_congr (s : State) {f g : Nat → Int} (h : ∀ j, j < 16 → f j = g j) : output s f = output s g := by
  rw [output, output, Finset.sum_congr rfl fun j hj => by rw [h j (Finset.mem_range.1 hj)]]

/-- FORWARD is the three stages' formula (R186). -/
theorem forward_computes {s : State} (q : Code) (h : ∀ r, s.ViewReady r) :
    ∃ c, forward s q = .ok c ∧ c.toInt = network s q.toInt := by
  obtain ⟨l1, h1, hlen1, hval1⟩ := dense1_computes q (h .w1) (h .b1)
  obtain ⟨l2, h2, hlen2, hval2⟩ := dense2_computes hlen1 (h .w2) (h .b2)
  obtain ⟨c, hout, hval⟩ := denseOut_computes hlen2 (h .wout) (h .bout)
  refine ⟨c, by simp only [forward, h1, h2, hout], hval.trans (output_congr s fun i hi => ?_)⟩
  rw [hval2 i hi, layer2_congr s hval1]

/-! ### The stages run by themselves -/

theorem exec_dense1_of_ok {s : State} {q : Code} {l : List Code} (h : dense1 s q = .ok l) :
    exec (.dense1 q) s = .next { s with reply := some (.codes l) } := by
  rw [exec, execDense1, h]
  rfl

theorem exec_dense2_of_ok {s : State} {l1 l : List Code} (hl : l1.length = 16) (h : dense2 s l1 = .ok l) :
    exec (.dense2 l1) s = .next { s with reply := some (.codes l) } := by
  rw [exec, execDense2, if_pos hl, h]
  rfl

theorem exec_denseOut_of_ok {s : State} {l2 : List Code} {c : Code} (hl : l2.length = 16) (h : denseOut s l2 = .ok c) :
    exec (.denseOut l2) s = .next { s with reply := some (.code c) } := by
  rw [exec, execDenseOut, if_pos hl, h]
  rfl

theorem exec_forward_of_ok {s : State} {q c : Code} (h : forward s q = .ok c) :
    exec (.forward q) s = .next { s with reply := some (.code c) } := by
  rw [exec, execForward, h]
  rfl

/-- Settles O26. -/
theorem dense1ComputesLayer : Obligations.Dense1ComputesLayer := by
  intro s q hw hb
  obtain ⟨l, hok, hlen, hval⟩ := dense1_computes q hw hb
  exact ⟨l, exec_dense1_of_ok hok, hlen, hval⟩

/-- Settles O27. -/
theorem dense2ComputesLayer : Obligations.Dense2ComputesLayer := by
  intro s l1 hl hw hb
  obtain ⟨l, hok, hlen, hval⟩ := dense2_computes hl hw hb
  exact ⟨l, exec_dense2_of_ok hl hok, hlen, hval⟩

/-- Settles O28. -/
theorem denseOutComputesUnit : Obligations.DenseOutComputesUnit := by
  intro s l2 hl hw hb
  obtain ⟨c, hok, hval⟩ := denseOut_computes hl hw hb
  exact ⟨c, exec_denseOut_of_ok hl hok, hval⟩

/-! ### The zero network (R155) -/

section
variable {s : State} (hzero : ∀ r k, k < (regionSize r).toNat → element s r k = 0)
include hzero

theorem layer1_of_zero (q : Int) {i : Nat} (hi : i < 16) : layer1 s q i = 0 := by
  rw [layer1, hzero .b1 i hi, hzero .w1 i hi, zero_mul, zero_mul]
  rfl

theorem layer2_of_zero (l1 : Nat → Int) {i : Nat} (hi : i < 16) : layer2 s l1 i = 0 := by
  have hrow (j : Nat) (hj : j ∈ Finset.range 16) : element s .w2 (i * 16 + j) * l1 j = 0 := by
    have hj := Finset.mem_range.1 hj
    rw [hzero .w2 _ (show i * 16 + j < 256 by omega), zero_mul]
  rw [layer2, hzero .b2 i hi, Finset.sum_eq_zero hrow, zero_mul]
  rfl

theorem output_of_zero (l2 : Nat → Int) : output s l2 = 0 := by
  have hrow (i : Nat) (hi : i ∈ Finset.range 16) : element s .wout i * l2 i = 0 := by
    rw [hzero .wout i (Finset.mem_range.1 hi), zero_mul]
  rw [output, hzero .bout 0 (by decide), Finset.sum_eq_zero hrow, zero_mul]
  rfl

end

theorem codes_eq_replicate_zero {l : List Code} {n : Nat} (hlen : l.length = n)
    (h : ∀ i, i < n → (l.getD i 0).toInt = 0) : l = List.replicate n 0 := by
  refine List.eq_replicate_iff.2 ⟨hlen, List.forall_mem_iff_getElem.2 fun i hi => ?_⟩
  rw [← List.getD_eq_getElem l 0 hi]
  exact BitVec.eq_of_toInt_eq (h i (hlen ▸ hi))

/-- Settles O30: each stage computes its formula, and every formula is 0 where all elements are. -/
theorem zeroNetworkOutputsZero : Obligations.ZeroNetworkOutputsZero := by
  intro s h hzero
  refine ⟨fun q => ?dense1, fun l hl => ?dense2, fun l hl => ?denseOut, fun q => ?forward⟩
  case dense1 =>
    obtain ⟨l, hok, hlen, hval⟩ := dense1_computes q (h .w1) (h .b1)
    obtain rfl := codes_eq_replicate_zero hlen fun i hi => (hval i hi).trans (layer1_of_zero hzero _ hi)
    exact exec_dense1_of_ok hok
  case dense2 =>
    obtain ⟨l', hok, hlen, hval⟩ := dense2_computes hl (h .w2) (h .b2)
    obtain rfl := codes_eq_replicate_zero hlen fun i hi => (hval i hi).trans (layer2_of_zero hzero _ hi)
    exact exec_dense2_of_ok hl hok
  case denseOut =>
    obtain ⟨c, hok, hval⟩ := denseOut_computes hl (h .wout) (h .bout)
    obtain rfl : c = 0 := BitVec.eq_of_toInt_eq (hval.trans (output_of_zero hzero _))
    exact exec_denseOut_of_ok hl hok
  case forward =>
    obtain ⟨c, hok, hval⟩ := forward_computes q h
    obtain rfl : c = 0 := BitVec.eq_of_toInt_eq (hval.trans (output_of_zero hzero _))
    exact exec_forward_of_ok hok

end Sys2Proof.Machine
end

section
/-! Proofs of the family 42_pipeline.md. The quantizer answers on every number (R184), FORWARD depends on the views' elements
only (R186), and from the two what RUN's result depends on (R191) and what it is with a zero blob (R196). -/

namespace Sys2Proof.Machine

open Reference

/-! ### The quantizer answers on every number (R181, R184) -/

theorem unit_pos : 0 < Fp.unit := Nat.two_pow_pos 149

@[simp] theorem signedMag_false (m : Nat) : signedMag false m = m := rfl

theorem natAbs_signedMag (neg : Bool) (m : Nat) : (signedMag neg m).natAbs = m := by
  cases neg <;> simp [signedMag]

/-- Rounding keeps a quotient of at most 512.0 finite; 512.0 is above every intermediate value of QUANTIZE32. -/
theorem round_eq_fin (neg : Bool) {num den : Nat} (hd : 0 < den) (h : num ≤ 512 * Fp.unit * den) :
    Fp.round neg num den = .fin neg (roundMag num den) := by
  have hexact : roundMag (512 * Fp.unit * den) den = 512 * Fp.unit := roundMag_exact (k := 149) hd (by decide)
  have hle : roundMag num den ≤ 512 * Fp.unit := hexact ▸ roundMag_mono den h
  exact if_pos (hle.trans_lt (by decide +kernel))

/-- The product of a magnitude of at most 1.0 with 255.0 rounds to at most 255.0. -/
theorem roundMag_mul_255_le {m : Nat} (h : m ≤ Fp.unit) : roundMag (m * (255 * Fp.unit)) Fp.unit ≤ 255 * Fp.unit := by
  have hexact : roundMag (255 * Fp.unit * Fp.unit) Fp.unit = 255 * Fp.unit :=
    roundMag_exact (k := 149) unit_pos (by decide)
  rw [← hexact]
  exact roundMag_mono _ (by rw [mul_comm (255 * Fp.unit)]; exact Nat.mul_le_mul_right _ h)

/-- A number divided by a finite value other than 0 is a number. -/
theorem div_fin_ne_nan {a : Fp} (ha : a ≠ .nan) (nb : Bool) {mb : Nat} (hb : mb ≠ 0) : Fp.div a (.fin nb mb) ≠ .nan := by
  cases a with
  | nan => exact absurd rfl ha
  | inf na => simp [Fp.div]
  | fin na ma =>
    simp only [Fp.div, if_neg hb, Fp.round]
    split <;> simp

/-- The clamp to 0.0..1.0 turns every number, the infinities included, into a magnitude of at most 1.0. -/
theorem clamp_zero_one_fin {v : Fp} (hv : v ≠ .nan) :
    ∃ neg m, Fp.clamp (Fp.ofInt 0) (Fp.ofInt 1) v = .fin neg m ∧ m ≤ Fp.unit := by
  rw [ofInt_zero, ofInt_one]
  generalize Fp.unit = u
  have hzero : ¬(u : Int) < 0 := by omega
  cases v with
  | nan => exact absurd rfl hv
  | inf neg =>
    cases neg with
    | false => exact ⟨false, u, by simp [Fp.clamp, Fp.lt], le_rfl⟩
    | true => exact ⟨false, 0, by simp [Fp.clamp, Fp.lt, hzero], Nat.zero_le u⟩
  | fin neg mag =>
    by_cases hlo : signedMag neg mag < 0
    · exact ⟨false, 0, by simp [Fp.clamp, Fp.lt, hlo, hzero], Nat.zero_le u⟩
    · by_cases hhi : (u : Int) < signedMag neg mag
      · exact ⟨false, u, by simp [Fp.clamp, Fp.lt, hlo, hhi], le_rfl⟩
      · have := natAbs_signedMag neg mag
        exact ⟨neg, mag, by simp [Fp.clamp, Fp.lt, hlo, hhi], by omega⟩

/-- The sum of two finite values of magnitude at most 256.0 is finite. -/
theorem add_fin_eq_fin (na nb : Bool) {ma mb : Nat} (ha : ma ≤ 256 * Fp.unit) (hb : mb ≤ 256 * Fp.unit) :
    ∃ neg m, Fp.add (.fin na ma) (.fin nb mb) = .fin neg m := by
  have hsum : (signedMag na ma + signedMag nb mb).natAbs ≤ 512 * Fp.unit * 1 := by
    have := Int.natAbs_add_le (signedMag na ma) (signedMag nb mb)
    rw [natAbs_signedMag, natAbs_signedMag] at this
    omega
  simp only [Fp.add]
  split
  · exact ⟨_, _, rfl⟩
  · exact ⟨_, _, round_eq_fin _ Nat.one_pos hsum⟩

/-- On a number the product `u` of R181 is finite and at most 255.0. -/
theorem quantizeU_fin {x : F32} (h : isNaN x = false) : ∃ neg m, quantizeU x = .fin neg m ∧ m ≤ 255 * Fp.unit := by
  have hdiv : Fp.div (Fp.decode x) (Fp.decode twoPi) ≠ .nan := by
    rw [decode_twoPi]
    exact div_fin_ne_nan (not_nan h) false (by decide +kernel)
  obtain ⟨neg, m, hclamp, hm⟩ := clamp_zero_one_fin hdiv
  refine ⟨neg ^^ false, _, ?_, roundMag_mul_255_le hm⟩
  rw [quantizeU, hclamp, ofInt_255]
  refine round_eq_fin _ unit_pos ?_
  calc m * (255 * Fp.unit) ≤ Fp.unit * (512 * Fp.unit) := Nat.mul_le_mul hm (by omega)
    _ = 512 * Fp.unit * Fp.unit := mul_comm _ _

/-- On a number the difference `t` of R181 is finite. -/
theorem quantizeT_fin {x : F32} (h : isNaN x = false) : ∃ neg m, quantizeT x = .fin neg m := by
  obtain ⟨neg, m, hu, hm⟩ := quantizeU_fin h
  rw [quantizeT, hu, ofInt_128]
  exact add_fin_eq_fin neg true (hm.trans (by omega)) (by omega)

/-- QUANTIZE32 answers on every number; only a NaN is left to a draw (R184). -/
theorem quantize32_of_not_nan {x : F32} (h : isNaN x = false) : ∃ q, quantize32 x = some q := by
  obtain ⟨neg, m, ht⟩ := quantizeT_fin h
  exact ⟨_, (quantize32_eq x).trans (congrArg _ (congrArg Fp.trunc ht))⟩

/-! ### FORWARD reads the elements of the views and nothing else (R186) -/

section
variable {s t : State} (h : ∀ r k, k < (regionSize r).toNat → elem s r k = elem t r k)
include h

theorem elems_congr {r : Region} {start count : Nat} (hend : start + count ≤ (regionSize r).toNat) :
    elems s r start count = elems t r start count :=
  collect_congr fun i _ hi => h r i (hi.trans_le hend)

theorem dense1_congr (q : Code) : dense1 s q = dense1 t q :=
  collect_congr fun i _ hi => by rw [unit1, unit1, h .b1 i hi, h .w1 i hi]

theorem dense2_congr (l1 : List Code) : dense2 s l1 = dense2 t l1 :=
  collect_congr fun i _ hi => by
    have hrow : 16 * i + 16 ≤ (regionSize .w2).toNat := by
      change 16 * i + 16 ≤ 256
      omega
    rw [unit2, unit2, h .b2 i hi, elems_congr h hrow]

theorem denseOut_congr (l2 : List Code) : denseOut s l2 = denseOut t l2 := by
  rw [denseOut, denseOut, h .bout 0 (by decide), elems_congr h (by decide)]

theorem forward_congr (q : Code) : forward s q = forward t q := by
  simp only [forward, dense1_congr h, dense2_congr h, denseOut_congr h]

end

/-- FORWARD gives 0 on every code where all elements are 0 (R155). -/
theorem forward_of_zero {s : State} (q : Code) (h : ∀ r, s.ViewReady r)
    (hzero : ∀ r k, k < (regionSize r).toNat → element s r k = 0) : forward s q = .ok 0 := by
  obtain ⟨c, hok, hval⟩ := forward_computes q h
  rw [hok, BitVec.eq_of_toInt_eq (hval.trans (output_of_zero hzero _) : c.toInt = (0 : Code).toInt)]

/-! ### RUN (R189, R190) -/

theorem exec_run_of_not_ready {s : State} (h : s.state ≠ .ready) : exec .run s = .next (s.setY 0) := by
  rw [exec, execRun, if_neg h]

theorem exec_run_of_forward {s : State} {c : Code} (h : s.state = .ready)
    (hf : forward s (quantize s.x s).1 = .ok c) :
    exec .run s = .next ((quantize s.x s).2.setY (dequantize c)) := by
  rw [exec, execRun, if_pos h, runPipeline, hf]

/-- Settles O43. Out of Ready both results are +0.0. In Ready X is a number, so neither state takes a draw: both quantize it to
the same code, and FORWARD of it is the same on both. -/
theorem runIsDeterministic : Obligations.RunIsDeterministic := by
  intro s t s' hstate hx hnum helem hrun
  obtain ⟨hs, rfl⟩ | ⟨hs, c, hc, rfl⟩ := execRun_cases hrun
  case inl => exact ⟨_, exec_run_of_not_ready (hstate ▸ hs), by simp⟩
  case inr =>
    obtain ⟨q, hq⟩ := quantize32_of_not_nan (hnum hs)
    rw [quantize_some s hq, forward_congr (helem hs)] at hc
    rw [hx] at hq
    have ht : forward t (quantize t.x t).1 = .ok c := by rw [quantize_some t hq, hc]
    exact ⟨_, exec_run_of_forward (hstate ▸ hs) ht, by simp only [State.setY_y]⟩

/-! ### The zero blob (R196) -/

theorem dequantize_zero : dequantize 0 = 0x00000000 := by decide +kernel

theorem toPattern_zero : toPattern 0x00000000 = some 128 := by decide +kernel

/-- Settles O46: whatever code X gives, drawn or not, FORWARD of it is 0. -/
theorem zeroBlobRunsToZero : Obligations.ZeroBlobRunsToZero := by
  intro s hs hviews hzero
  refine ⟨?run, ?pattern⟩
  case run =>
    have hrun := exec_run_of_forward hs (forward_of_zero _ hviews hzero)
    rw [dequantize_zero] at hrun
    refine ⟨_, hrun, State.setY_y _ _, ?_⟩
    rcases quantize_state s.x s with e | e <;> rw [e] <;> rfl
  case pattern =>
    rw [exec, execToPattern, toPattern_zero]
    rfl

end Sys2Proof.Machine
end

section
/-! Proofs about the codes: the command word and its decoder (30_encoding.md R81 to R84), the layouts of views and `DIAG`
records (R85 to R88), and the host's register map (10_state.md R28). -/

namespace Sys2Proof.Machine

open Laws.CommandWord (reserved_fields)
open BitVec (extractLsb'_append_eq_of_le extractLsb'_append_eq_of_add_le extractLsb'_eq_self)

/-! ### The command word -/

theorem reserved_or_command (w : Word) : (w.toNat % 4 = 3 ∨ 4 ≤ w.toNat) ∨ w = 0 ∨ w = 1 ∨ w = 2 := by
  by_cases h : w.toNat % 4 = 3 ∨ 4 ≤ w.toNat
  · exact .inl h
  · have hw : w.toNat = 0 ∨ w.toNat = 1 ∨ w.toNat = 2 := by omega
    exact .inr (hw.imp BitVec.eq_of_toNat_eq (Or.imp BitVec.eq_of_toNat_eq BitVec.eq_of_toNat_eq))

/-- The words that R82 names decode to the commands, and no other word does (R84). -/
theorem decode_reserved_iff (w : Word) : decode w = .reserved w ↔ (w.toNat % 4 = 3 ∨ 4 ≤ w.toNat) := by
  have hfields : (cmdZero w ≠ 0 ∨ cmdOp w = 3) ↔ (w.toNat % 4 = 3 ∨ 4 ≤ w.toNat) := by
    simpa only [isReservedWord, Bool.or_eq_true, decide_eq_true_eq] using reserved_fields w
  constructor
  · intro h
    rcases reserved_or_command w with hr | rfl | rfl | rfl
    · exact hr
    all_goals exact absurd h (by decide)
  · intro h
    rw [decode]
    rcases hfields.2 h with hz | ho
    · exact if_neg hz
    · simp [ho]

/-- Settles O2: a word is one of the three commands or reserved, and the fields of a reserved word say so to both sides. -/
theorem decodeAndEncodeAgree : Obligations.DecodeAndEncodeAgree := by
  refine ⟨fun w => ?fromWord, fun i w hwf henc => ?fromInstr⟩
  case fromWord =>
    rcases reserved_or_command w with hr | rfl | rfl | rfl
    · have hres : isReservedWord w = true := by simpa [isReservedWord] using hr
      rw [(decode_reserved_iff w).2 hr]
      exact ⟨hres, if_pos ((reserved_fields w).2 hres)⟩
    all_goals decide
  case fromInstr =>
    cases i with
    | nop | init | run =>
      cases henc
      decide
    | reserved v =>
      have hres : isReservedWord v = true := hwf
      rw [encode, if_pos ((reserved_fields v).2 hres)] at henc
      cases henc
      exact (decode_reserved_iff w).2 (by simpa [isReservedWord] using hres)
    | _ => cases henc

/-- A step that takes a write of CMD runs the decoded word (R28, R81). -/
theorem step_of_command {s : State} {w : Word} {es : List HostEvent} (h : s.events = .writeReg 15 w :: es) :
    step s = exec (decode w) (s.setEvents es) :=
  step_serves h

/-- Settles O3. -/
theorem reservedWordsAreRefused : Obligations.ReservedWordsAreRefused := by
  refine ⟨decode_reserved_iff, fun _ _ => rfl, fun w s es hr he => ?_⟩
  rw [step_of_command he, (decode_reserved_iff w).2 hr]
  rfl

/-- Settles O1. -/
theorem commandWordsDecode : Obligations.CommandWordsDecode := by
  refine ⟨by decide, by decide, by decide, ?_, ?_, ?_⟩ <;> exact (decode_reserved_iff _).2 (by decide)

/-- Settles O6: placing a command word only puts its event before the pending ones. -/
theorem stepRunsDecodedCommand : Obligations.StepRunsDecodedCommand := by
  refine ⟨fun s w es he => step_of_command he, fun s w => ?_⟩
  have hw : tableWord 32 w.toNat = w := by
    rw [tableWord, Nat.mod_eq_of_lt w.isLt, BitVec.ofNat_toNat, BitVec.setWidth_eq]
  have he : (s.withFetchWord 32 w.toNat).events = .writeReg 15 w :: s.events := by
    rw [State.withFetchWord, placeCommand, hw]
    rfl
  rw [step_of_command he]
  rfl

/-! ### The layouts of views and `DIAG` records -/

theorem regionCode_injective {r q : Region} (h : BitVec.ofNat 3 (regionIndex r) = BitVec.ofNat 3 (regionIndex q)) :
    r = q := by
  revert r q
  have hall : ∀ r ∈ regionsInOrder, ∀ q ∈ regionsInOrder,
      BitVec.ofNat 3 (regionIndex r) = BitVec.ofNat 3 (regionIndex q) → r = q := by decide
  exact fun {r q} => hall r (mem_regionsInOrder r) q (mem_regionsInOrder q)

/-- Each part of six appended ones is found at the sum of the widths below it: the lower parts are skipped one by one. -/
theorem extractLsb'_append_six (a b c : BitVec 32) (d : BitVec 27) (e : BitVec 3) (f : BitVec 2) :
    (a ++ b ++ c ++ d ++ e ++ f).extractLsb' 0 2 = f ∧ (a ++ b ++ c ++ d ++ e ++ f).extractLsb' 2 3 = e ∧
    (a ++ b ++ c ++ d ++ e ++ f).extractLsb' 5 27 = d ∧ (a ++ b ++ c ++ d ++ e ++ f).extractLsb' 32 32 = c ∧
    (a ++ b ++ c ++ d ++ e ++ f).extractLsb' 64 32 = b ∧ (a ++ b ++ c ++ d ++ e ++ f).extractLsb' 96 32 = a := by
  refine ⟨?_, ?_, ?_, ?_, ?_, ?_⟩
  · rw [extractLsb'_append_eq_of_add_le (by omega), extractLsb'_eq_self]
  · rw [extractLsb'_append_eq_of_le, extractLsb'_append_eq_of_add_le, extractLsb'_eq_self] <;> omega
  · rw [extractLsb'_append_eq_of_le, extractLsb'_append_eq_of_le, extractLsb'_append_eq_of_add_le,
      extractLsb'_eq_self] <;> omega
  · rw [extractLsb'_append_eq_of_le, extractLsb'_append_eq_of_le, extractLsb'_append_eq_of_le,
      extractLsb'_append_eq_of_add_le, extractLsb'_eq_self] <;> omega
  · rw [extractLsb'_append_eq_of_le, extractLsb'_append_eq_of_le, extractLsb'_append_eq_of_le,
      extractLsb'_append_eq_of_le, extractLsb'_append_eq_of_add_le, extractLsb'_eq_self] <;> omega
  · rw [extractLsb'_append_eq_of_le, extractLsb'_append_eq_of_le, extractLsb'_append_eq_of_le,
      extractLsb'_append_eq_of_le, extractLsb'_append_eq_of_le, extractLsb'_eq_self] <;> omega

theorem extractLsb'_append_three (a : BitVec 1) (b c : BitVec 32) :
    (a ++ b ++ c).extractLsb' 64 1 = a ∧ (a ++ b ++ c).extractLsb' 32 32 = b ∧ (a ++ b ++ c).extractLsb' 0 32 = c := by
  refine ⟨?_, ?_, ?_⟩
  · rw [extractLsb'_append_eq_of_le, extractLsb'_append_eq_of_le, extractLsb'_eq_self] <;> omega
  · rw [extractLsb'_append_eq_of_le, extractLsb'_append_eq_of_add_le, extractLsb'_eq_self] <;> omega
  · rw [extractLsb'_append_eq_of_add_le (by omega), extractLsb'_eq_self]

/-- The fields of an OOB record (R88). -/
theorem recordBits_oob_fields (r : Region) (off size len : Word) :
    (recordBits (.oob r off size len)).extractLsb' 0 2 = 1 ∧
    (recordBits (.oob r off size len)).extractLsb' 2 3 = BitVec.ofNat 3 (regionIndex r) ∧
    (recordBits (.oob r off size len)).extractLsb' 5 27 = 0 ∧
    (recordBits (.oob r off size len)).extractLsb' 32 32 = off ∧
    (recordBits (.oob r off size len)).extractLsb' 64 32 = size ∧
    (recordBits (.oob r off size len)).extractLsb' 96 32 = len :=
  extractLsb'_append_six len size off 0 (BitVec.ofNat 3 (regionIndex r)) 1

/-- The fields of a resolved view (R86). -/
theorem viewBits_resolved_fields (base len : Word) :
    (viewBits (.resolved base len)).extractLsb' 64 1 = 1 ∧
    (viewBits (.resolved base len)).extractLsb' 32 32 = base ∧
    (viewBits (.resolved base len)).extractLsb' 0 32 = len :=
  extractLsb'_append_three 1 base len

/-- The kind field tells the two records apart; the other fields are an OOB record's operands. -/
theorem recordBits_injective : Function.Injective recordBits := by
  intro a b h
  cases a with
  | oob r off size len =>
    obtain ⟨hkind, hregion, -, hoff, hsize, hlen⟩ := recordBits_oob_fields r off size len
    cases b with
    | oob r' off' size' len' =>
      obtain ⟨-, hregion', -, hoff', hsize', hlen'⟩ := recordBits_oob_fields r' off' size' len'
      rw [h] at hregion hoff hsize hlen
      rw [regionCode_injective (hregion.symm.trans hregion'), hoff.symm.trans hoff', hsize.symm.trans hsize',
        hlen.symm.trans hlen']
    | dupInit =>
      rw [h] at hkind
      exact absurd hkind (by decide)
  | dupInit =>
    cases b with
    | oob r off size len =>
      obtain ⟨hkind, -⟩ := recordBits_oob_fields r off size len
      rw [← h] at hkind
      exact absurd hkind (by decide)
    | dupInit => rfl

/-- `res` tells a resolved view from an Unresolved one; the other fields are the view's own. -/
theorem viewBits_injective : Function.Injective viewBits := by
  intro a b h
  cases a with
  | unresolved =>
    cases b with
    | unresolved => rfl
    | resolved base len =>
      obtain ⟨hres, -⟩ := viewBits_resolved_fields base len
      rw [← h] at hres
      exact absurd hres (by decide)
  | resolved base len =>
    obtain ⟨hres, hbase, hlen⟩ := viewBits_resolved_fields base len
    cases b with
    | unresolved =>
      rw [h] at hres
      exact absurd hres (by decide)
    | resolved base' len' =>
      obtain ⟨-, hbase', hlen'⟩ := viewBits_resolved_fields base' len'
      rw [h] at hbase hlen
      rw [hbase.symm.trans hbase', hlen.symm.trans hlen']

/-- Settles O4. -/
theorem diagRecordLayout : Obligations.DiagRecordLayout :=
  ⟨recordBits_oob_fields, rfl, recordBits_injective⟩

/-- Settles O5. -/
theorem viewAndStateCodes : Obligations.ViewAndStateCodes :=
  ⟨viewBits_resolved_fields, rfl, viewBits_injective, rfl, rfl, rfl⟩

/-! ### The host's register map -/

theorem getLsbD_of_six_bits : ∀ b0 b1 b2 b3 b4 b5 : Bool,
    let w : Word := (BitVec.ofNat 6 (b0.toNat + 2 * b1.toNat + 4 * b2.toNat + 8 * b3.toNat + 16 * b4.toNat
      + 32 * b5.toNat)).setWidth 32
    w.getLsbD 0 = b0 ∧ w.getLsbD 1 = b1 ∧ w.getLsbD 2 = b2 ∧ w.getLsbD 3 = b3 ∧ w.getLsbD 4 = b4 ∧
      w.getLsbD 5 = b5 := by decide

theorem resBit_eq_toNat (s : State) (r : Region) : resBit s r = (s.view r).isResolved.toNat := by
  rw [resBit]
  cases (s.view r).isResolved <;> rfl

/-- The VALID register has one bit for each region (R28). -/
theorem resBits_getLsbD (s : State) (r : Region) :
    ((resBits s).setWidth 32).getLsbD (regionIndex r) = (s.view r).isResolved := by
  obtain ⟨hw1, hb1, hw2, hb2, hwout, hbout⟩ := getLsbD_of_six_bits (s.view .w1).isResolved (s.view .b1).isResolved
    (s.view .w2).isResolved (s.view .b2).isResolved (s.view .wout).isResolved (s.view .bout).isResolved
  simp only [resBits, resBit_eq_toNat]
  cases r <;> assumption

theorem resBits_toNat_lt (s : State) : ((resBits s).setWidth 32).toNat < 64 := by
  rw [BitVec.toNat_setWidth]
  exact (Nat.mod_le _ _).trans_lt (resBits s).isLt

/-- A step that takes a read of a register gives its value back and changes nothing of the block (R28, R272). -/
theorem step_of_readReg {s : State} {n : Nat} {es : List HostEvent} {w : Word} (h : s.events = .readReg n :: es)
    (hr : readRegister (s.setEvents es) n = .ok w) :
    step s = .next { s with events := es, reply := some (.word w) } := by
  rw [step_serves h, serve, serveRead, hr]
  rfl

theorem step_of_readReg_refused {s : State} {n : Nat} {es : List HostEvent} {e : Refusal}
    (h : s.events = .readReg n :: es) (hr : readRegister (s.setEvents es) n = .error e) : step s = .refused e := by
  rw [step_serves h, serve, serveRead, hr]

/-- A write of a register other than CMD and X is refused (R28). -/
theorem step_of_writeReg_refused {s : State} {n : Nat} {v : Word} {es : List HostEvent}
    (h : s.events = .writeReg n v :: es) (hcmd : n ≠ 15) (hx : n ≠ 16) :
    step s = .refused (if n < 18 then .writeToReadOnlyRegister n else .noSuchRegister n) := by
  rw [step_serves h, serve, serveWrite, if_neg (by exact hcmd), writeRegister, if_neg hx]
  split <;> rfl

/-- Settles O8: one clause of `readRegister` for each number, and the two refusals of `writeRegister`. -/
theorem hostRegisterMap : Obligations.HostRegisterMap := by
  intro s es n v
  refine ⟨fun h => ?state, fun h => ?valid, fun h => step_of_readReg h rfl, fun r h => ?offset, fun r h => ?size,
    fun h => step_of_readReg h rfl, fun h => step_of_readReg h rfl, fun h => step_of_readReg_refused h rfl,
    fun h hn => ?noRead, fun h hn => ?readOnly, fun h hn => ?noWrite⟩
  case state =>
    refine step_of_readReg h ?_
    show Except.ok ((stateCode s.state).setWidth 32) = _
    cases s.state <;> rfl
  case valid => exact ⟨_, resBits_toNat_lt s, resBits_getLsbD s, step_of_readReg h rfl⟩
  case offset => exact step_of_readReg h (by cases r <;> rfl)
  case size => exact step_of_readReg h (by cases r <;> rfl)
  case noRead =>
    obtain ⟨m, rfl⟩ := Nat.exists_eq_add_of_le' hn
    exact step_of_readReg_refused h rfl
  case readOnly => rw [step_of_writeReg_refused h (by omega) (by omega), if_pos (by omega)]
  case noWrite => rw [step_of_writeReg_refused h (by omega) (by omega), if_neg (by omega)]

/-- Settles O7. -/
theorem stepServesHostEvents : Obligations.StepServesHostEvents :=
  fun _ _ _ => ⟨step_idle, step_serves, step_serves, step_serves, step_serves⟩

end Sys2Proof.Machine
end

section
/-! More proofs about the dense unit and its stages (41_dense_layer.md): the order of MAC's terms and the accumulators' ranges
(R143, R144), division and clamp (R145, R153, R154), FORWARD (R186), and where an element read stops a stage (R52, R53). -/

namespace Sys2Proof.Machine

open Reference

/-! ### MAC -/

/-- Settles O19: MAC is a sum, and a sum has no order. -/
theorem macOrderUnobservable : Obligations.MacOrderUnobservable := by
  intro bias terms terms' s hperm
  have hsum := (hperm.map fun t : Code × Code => t.1.toInt * t.2.toInt).sum_eq
  have hmac : mac bias terms = mac bias terms' := by rw [mac_eq_sum, mac_eq_sum, hsum]
  rw [exec, exec, execMac, execMac, hmac]

/-- A weight times a layer's code, which is in 0..127. -/
theorem toInt_mul_layerCode_range (w : Code) {c : Code} (hc : c.toNat ≤ 127) :
    -16256 ≤ w.toInt * c.toInt ∧ w.toInt * c.toInt ≤ 16129 := by
  obtain ⟨hlo, hhi⟩ := toInt_range w
  have hval : c.toInt = c.toNat := BitVec.toInt_eq_toNat_of_lt (by omega)
  rw [hval]
  constructor <;> nlinarith

theorem mac_one_range (b w q : Code) : -17280 ≤ mac b [(w, q)] ∧ mac b [(w, q)] ≤ 17400 := by
  have hb := toInt_range b
  have hp := toInt_mul_toInt_range w q
  simp only [mac_eq_sum, List.map_cons, List.map_nil, List.sum_cons, List.sum_nil]
  omega

theorem mac_layer_range (b : Code) {terms : List (Code × Code)} (hlen : terms.length = 16)
    (hcodes : ∀ t ∈ terms, t.2.toNat ≤ 127) : -261120 ≤ mac b terms ∧ mac b terms ≤ 259080 := by
  have hb := toInt_range b
  have hlo := List.card_nsmul_le_sum (terms.map fun t => t.1.toInt * t.2.toInt) (-16256)
    (List.forall_mem_map.2 fun t ht => (toInt_mul_layerCode_range t.1 (hcodes t ht)).1)
  have hhi := List.sum_le_card_nsmul (terms.map fun t => t.1.toInt * t.2.toInt) 16129
    (List.forall_mem_map.2 fun t ht => (toInt_mul_layerCode_range t.1 (hcodes t ht)).2)
  simp only [List.length_map, hlen, nsmul_eq_mul] at hlo hhi
  rw [mac_eq_sum]
  omega

/-! ### DIVT32 and the clamps -/

theorem divt32_mono {a b : Int} (h : a ≤ b) : divt32 a ≤ divt32 b := by
  simp only [divt32]
  split_ifs <;> omega

/-- Settles O20: the sums are bounded term by term, and division is monotone. -/
theorem accumulatorRanges : Obligations.AccumulatorRanges := by
  refine ⟨fun b w q => ?one, fun b terms hlen hcodes => ?layer, by decide, by decide, by decide, by decide⟩
  case one =>
    obtain ⟨hlo, hhi⟩ := mac_one_range b w q
    exact ⟨hlo, hhi, divt32_mono hlo, divt32_mono hhi⟩
  case layer =>
    obtain ⟨hlo, hhi⟩ := mac_layer_range b hlen hcodes
    exact ⟨hlo, hhi, divt32_mono hlo, divt32_mono hhi⟩

theorem divt32_of_nonneg {a : Int} (h : 0 ≤ a) : divt32 a = a / 32 := if_pos h

/-- Below 0 truncation is flooring after a correction by 31. -/
theorem divt32_of_neg {a : Int} (h : a < 0) : divt32 a = (a + 31) / 32 := by
  rw [divt32, if_neg (by omega)]
  omega

/-- Settles O21: each property reads off the two signs of the operand. -/
theorem divt32TruncatesTowardZero : Obligations.Divt32TruncatesTowardZero := by
  refine ⟨fun a s => ?_, fun a => ?_⟩
  · rw [← divt32_eq_tdiv]
    rfl
  · have hodd : divt32 (-a) = -divt32 a := by rw [divt32_eq_tdiv, divt32_eq_tdiv, Int.neg_tdiv]
    refine ⟨hodd, ?magnitude, fun _ => divt32_mono, ?remNonneg, ?remNonpos, ?remBound, fun h => ?shiftNonneg,
      fun h => ?shiftNeg⟩
    case shiftNonneg => rw [divt32_of_nonneg h, Int.shiftRight_eq_div_pow]; rfl
    case shiftNeg => rw [divt32_of_neg h, Int.shiftRight_eq_div_pow]; rfl
    all_goals
      rcases lt_or_ge a 0 with h | h
      · rw [divt32_of_neg h]
        omega
      · rw [divt32_of_nonneg h]
        omega

/-- Settles O24: the two divisions differ only below 0 off the multiples of 32, by one, and there `RELU_CLAMP` gives 0 for
both and `SYM_CLAMP` is the identity down to -128. -/
theorem truncationDirectionVisibility : Obligations.TruncationDirectionVisibility := by
  refine ⟨fun a => ?_, fun a hlo hhi hmod => ?_, fun a h => ?_⟩
  · rcases lt_or_ge a 0 with ha | ha
    · rw [reluClamp_eq_relu, reluClamp_eq_relu, divt32_of_neg ha, relu, relu]
      omega
    · rw [divt32_of_nonneg ha]
  · rw [symClamp_eq_saturate, symClamp_eq_saturate, divt32_of_neg (by omega), saturate, saturate]
    omega
  · rcases lt_or_ge a 0 with ha | ha
    · rw [symClamp_eq_saturate, symClamp_eq_saturate, divt32_of_neg ha, saturate, saturate]
      omega
    · rw [divt32_of_nonneg ha]

/-- Settles O25. -/
theorem quotientAndClampCombined : Obligations.QuotientAndClampCombined := by
  simp only [Obligations.QuotientAndClampCombined, ← divt32_eq_tdiv, reluClamp_eq_relu, symClamp_eq_saturate, relu,
    saturate, divt32]
  refine ⟨fun a h => ?_, fun a hlo hhi => ?_, fun a h => ?_, fun a h => ?_, fun a hlo hhi => ?_, fun a h => ?_⟩ <;>
    split <;> omega

/-! ### FORWARD -/

/-- Settles O31. -/
theorem forwardComputesNetwork : Obligations.ForwardComputesNetwork := by
  intro s q h
  obtain ⟨c, hok, hval⟩ := forward_computes q h
  exact ⟨c, exec_forward_of_ok hok, hval⟩

/-! ### Where an element read stops a stage -/

/-- What `e` is when it reads the elements `l` in this order and can fail only there. -/
def ReadsInOrder {α : Type} (s : State) (l : List (Region × Nat)) (e : Except Fault α) : Prop :=
  (∀ f, firstFault s l = some f → e = .error f) ∧ (firstFault s l = none → ∃ a, e = .ok a)

namespace ReadsInOrder

variable {α β : Type} {s : State} {l m : List (Region × Nat)}

theorem pure (a : α) : ReadsInOrder s [] (.ok a) := ⟨nofun, fun _ => ⟨a, rfl⟩⟩

/-- What runs after the reads of `l` have succeeded reads `m`. -/
theorem bind {e : Except Fault α} {k : α → Except Fault β} (he : ReadsInOrder s l e)
    (hk : ∀ a, ReadsInOrder s m (k a)) : ReadsInOrder s (l ++ m) (e >>= k) := by
  obtain ⟨herr, hok⟩ := he
  have happ : firstFault s (l ++ m) = (firstFault s l).or (firstFault s m) := List.findSome?_append
  rw [ReadsInOrder, happ]
  cases hl : firstFault s l with
  | some f =>
    rw [herr f hl]
    exact ⟨fun _ h => Option.some.inj h ▸ rfl, nofun⟩
  | none =>
    obtain ⟨a, rfl⟩ := hok hl
    exact hk a

theorem map {e : Except Fault α} (he : ReadsInOrder s l e) (g : α → β) : ReadsInOrder s l (e >>= fun a => .ok (g a)) := by
  simpa using he.bind fun a => .pure (g a)

theorem elem (r : Region) (k : Nat) : ReadsInOrder s [(r, k)] (elem s r k) := by
  have hone : firstFault s [(r, k)] = elementFault s r k := List.findSome?_singleton
  rw [ReadsInOrder, hone]
  cases hview : s.view r with
  | unresolved =>
    have hfault : elementFault s r k = some (.readThroughUnresolvedView r) := by rw [elementFault, hview]
    rw [hfault, elem_unresolved k hview]
    exact ⟨fun _ h => Option.some.inj h ▸ rfl, nofun⟩
  | resolved base len =>
    have hfault : elementFault s r k = if len.toNat ≤ k then some (.elementOutsideView r k)
        else if s.blobLen.toNat ≤ base.toNat + k then some (.blobReadOutOfBounds (base.toNat + k)) else none := by
      rw [elementFault, hview]
    have helem : Machine.elem s r k =
        if k < len.toNat then memRead s (base.toNat + k) else .error (.elementOutsideView r k) := by
      rw [Machine.elem, hview]
    rw [hfault, helem]
    by_cases hlen : len.toNat ≤ k
    · rw [if_pos hlen, if_neg (Nat.not_lt.2 hlen)]
      exact ⟨fun _ h => Option.some.inj h ▸ rfl, nofun⟩
    · rw [if_neg hlen, if_pos (Nat.not_le.1 hlen), memRead]
      by_cases hblob : s.blobLen.toNat ≤ base.toNat + k
      · rw [if_pos hblob, if_neg (Nat.not_lt.2 hblob)]
        exact ⟨fun _ h => Option.some.inj h ▸ rfl, nofun⟩
      · rw [if_neg hblob, if_pos (Nat.not_le.1 hblob)]
        exact ⟨nofun, fun _ => ⟨_, rfl⟩⟩

/-- A loop reads what its turns read, one turn after another. -/
theorem collect {f : Nat → Except Fault α} {reads : Nat → List (Region × Nat)} (h : ∀ i, ReadsInOrder s (reads i) (f i))
    (start count : Nat) : ReadsInOrder s ((List.range' start count).flatMap reads) (collect f start count) := by
  induction count generalizing start with
  | zero => exact pure []
  | succ n ih =>
    have hturn : Machine.collect f start (n + 1) =
        f start >>= fun a => Machine.collect f (start + 1) n >>= fun rest => .ok (a :: rest) := by
      rw [Machine.collect]
      cases f start with
      | error e => rfl
      | ok a => cases Machine.collect f (start + 1) n <;> rfl
    rw [List.range'_succ, List.flatMap_cons, hturn]
    exact (h start).bind fun a => (ih (start + 1)).map (a :: ·)

theorem elems (r : Region) (start count : Nat) :
    ReadsInOrder s ((List.range' start count).map fun k => (r, k)) (elems s r start count) := by
  have h := collect (s := s) (fun k => elem r k) start count
  rwa [← List.map_eq_flatMap] at h

theorem unit1 (q : Code) (i : Nat) : ReadsInOrder s [(.b1, i), (.w1, i)] (unit1 s q i) := by
  have hunit : Machine.unit1 s q i =
      Machine.elem s .b1 i >>= fun b => Machine.elem s .w1 i >>= fun w => .ok (hiddenUnit b [(w, q)]) := by
    rw [Machine.unit1]
    cases Machine.elem s .b1 i <;> cases Machine.elem s .w1 i <;> rfl
  rw [hunit]
  exact (elem .b1 i).bind fun b => (elem .w1 i).map _

theorem unit2 (l1 : List Code) (i : Nat) :
    ReadsInOrder s ((.b2, i) :: (List.range 16).map fun j => (.w2, 16 * i + j)) (unit2 s l1 i) := by
  have hunit : Machine.unit2 s l1 i =
      Machine.elem s .b2 i >>= fun b => Machine.elems s .w2 (16 * i) 16 >>= fun row => .ok (hiddenUnit b (row.zip l1)) := by
    rw [Machine.unit2]
    cases Machine.elem s .b2 i <;> cases Machine.elems s .w2 (16 * i) 16 <;> rfl
  have hrow := elems (s := s) .w2 (16 * i) 16
  rw [List.range'_eq_map_range, List.map_map] at hrow
  rw [hunit]
  exact (elem .b2 i).bind fun b => hrow.map _

theorem dense1 (q : Code) : ReadsInOrder s reads1 (dense1 s q) := by
  rw [reads1, List.range_eq_range']
  exact collect (unit1 q) 0 16

theorem dense2 (l1 : List Code) : ReadsInOrder s reads2 (dense2 s l1) := by
  have h := collect (s := s) (unit2 l1) 0 16
  rwa [← List.range_eq_range'] at h

theorem denseOut (l2 : List Code) : ReadsInOrder s readsOut (denseOut s l2) := by
  have hunit : Machine.denseOut s l2 =
      Machine.elem s .bout 0 >>= fun b => Machine.elems s .wout 0 16 >>= fun row => .ok (outputUnit b (row.zip l2)) := by
    rw [Machine.denseOut]
    cases Machine.elem s .bout 0 <;> cases Machine.elems s .wout 0 16 <;> rfl
  have hrow := elems (s := s) .wout 0 16
  rw [← List.range_eq_range'] at hrow
  rw [hunit]
  exact (elem .bout 0).bind fun b => hrow.map _

theorem forward (q : Code) : ReadsInOrder s (reads1 ++ reads2 ++ readsOut) (forward s q) := by
  have hstages : Machine.forward s q =
      Machine.dense1 s q >>= fun l1 => Machine.dense2 s l1 >>= fun l2 => Machine.denseOut s l2 := by
    rw [Machine.forward]
    cases Machine.dense1 s q with
    | error e => rfl
    | ok l1 =>
      dsimp only
      change _ = Machine.dense2 s l1 >>= fun l2 => Machine.denseOut s l2
      cases Machine.dense2 s l1 <;> rfl
  rw [hstages, List.append_assoc]
  exact (dense1 q).bind fun l1 => (dense2 l1).bind denseOut

/-- An outcome that only passes on the result of the reads stops as they do. -/
theorem stops {e : Except Fault α} {o : StepOutcome} (he : ReadsInOrder s l e) (herr : ∀ f, e = .error f → o = .fault f)
    (hok : ∀ a, e = .ok a → ∃ t, o = .next t) : StopsAsReads s l o := by
  rw [StopsAsReads]
  split
  next f hf => exact herr f (he.1 f hf)
  next hn =>
    obtain ⟨a, ha⟩ := he.2 hn
    exact hok a ha

theorem answering {e : Except Fault α} (he : ReadsInOrder s l e) (g : α → Reply) :
    StopsAsReads s l (answering s (e.map g)) :=
  he.stops (fun _ h => h ▸ rfl) (fun _ h => h ▸ ⟨_, rfl⟩)

end ReadsInOrder

/-- RUN in Ready stops as its FORWARD does. -/
theorem execRun_stops {s : State} (hs : s.state = .ready) :
    StopsAsReads s (reads1 ++ reads2 ++ readsOut) (execRun s) := by
  rw [execRun, if_pos hs, runPipeline]
  exact (ReadsInOrder.forward (quantize s.x s).1).stops (fun _ h => by rw [h]) (fun _ h => by rw [h]; exact ⟨_, rfl⟩)

/-- An Unresolved view stops an operation whose first element is read through it. -/
theorem fault_of_unresolved {s : State} {r : Region} {k : Nat} {l : List (Region × Nat)} {o : StepOutcome}
    (hv : s.view r = .unresolved) (ho : StopsAsReads s ((r, k) :: l) o) : o = .fault (.readThroughUnresolvedView r) := by
  have hfirst : firstFault s ((r, k) :: l) = some (.readThroughUnresolvedView r) := by
    rw [firstFault, List.findSome?_cons, elementFault, hv]
  rwa [StopsAsReads, hfirst] at ho

/-- Settles O29: the reads of each stage in the order its loops make them; the bias is the first. -/
theorem stageStopsByName : Obligations.StageStopsByName := by
  intro s
  have h1 (q : Code) : StopsAsReads s reads1 (exec (.dense1 q) s) := (ReadsInOrder.dense1 q).answering _
  have h2 (l : List Code) (hl : l.length = 16) : StopsAsReads s reads2 (exec (.dense2 l) s) := by
    rw [exec, execDense2, if_pos hl]
    exact (ReadsInOrder.dense2 l).answering _
  have hout (l : List Code) (hl : l.length = 16) : StopsAsReads s readsOut (exec (.denseOut l) s) := by
    rw [exec, execDenseOut, if_pos hl]
    exact (ReadsInOrder.denseOut l).answering _
  exact ⟨h1, h2, hout, fun q => (ReadsInOrder.forward q).answering _, execRun_stops,
    fun q hv => fault_of_unresolved hv (h1 q), fun l hl hv => fault_of_unresolved hv (h2 l hl),
    fun l hl hv => fault_of_unresolved hv (hout l hl), fun l hl => if_neg hl, fun l hl => if_neg hl⟩

end Sys2Proof.Machine
end

section
/-! Proofs about the whole machine: INIT in full (40_bounds_resolver.md R110 to R117), the invariant of the reachable states
(10_state.md R34), memory safety (20_memory.md R61), and what steps leave unchanged. -/

namespace Sys2Proof.Machine

open Reference

/-! ### INIT in full (R113, R114) -/

/-- Settles O12. -/
theorem validIsIntegerComparison : Obligations.ValidIsIntegerComparison := by
  refine ⟨fun off size len s => ?_, fun off size len len' h hle => ?_⟩
  · have hval : valid off size len = decide (off.toNat + size.toNat ≤ len.toNat) := by
      rw [Bool.eq_iff_iff, valid_iff, decide_eq_true_iff]
    rw [← hval]
    rfl
  · rw [valid_iff] at h ⊢
    exact h.trans hle

theorem resolve_diag (s : State) (r : Region) :
    (resolve s r).diag = s.diag ++ ([r].filter (fun r => decide (s.blobLen.toNat < s.regionEnd r))).map
      (fun r => .oob r (s.offset r) (regionSize r) s.blobLen) := by
  rw [resolve_eq_ite]
  split
  case isTrue h => simp [h]
  case isFalse h => simp [Nat.not_le.1 h]

theorem foldl_resolve_diag (s : State) (l : List Region) :
    (l.foldl resolve s).diag = s.diag ++ (l.filter (fun r => decide (s.blobLen.toNat < s.regionEnd r))).map
      (fun r => .oob r (s.offset r) (regionSize r) s.blobLen) := by
  induction l generalizing s with
  | nil => simp
  | cons r l ih =>
    rw [List.foldl_cons, ih, resolve_diag]
    simp only [resolve_blobLen, resolve_regionEnd, resolve_offset]
    rw [List.append_assoc, ← List.map_append, ← List.filter_append, List.singleton_append]

theorem foldl_resolve_frame (s : State) (l : List Region) :
    l.foldl resolve s = { s with views := (l.foldl resolve s).views, diag := (l.foldl resolve s).diag } := by
  induction l generalizing s with
  | nil => rfl
  | cons r l ih =>
    rw [List.foldl_cons, ih, resolve_frame]

/-- INIT from Uninitialized records the regions that fail, in region order (R113, D3). -/
theorem initialise_diag (s : State) :
    (initialise s).diag = s.diag ++ (regionsInOrder.filter (fun r => decide (s.blobLen.toNat < s.regionEnd r))).map
      (fun r => .oob r (s.offset r) (regionSize r) s.blobLen) :=
  foldl_resolve_diag s regionsInOrder

theorem initialise_frame (s : State) :
    initialise s =
      { s with state := (initialise s).state, views := (initialise s).views, diag := (initialise s).diag } := by
  exact congrArg (fun t => t.setState (initialise s).state) (foldl_resolve_frame s regionsInOrder)

/-- Settles O14. -/
theorem initResolvesAllRegions : Obligations.InitResolvesAllRegions :=
  ⟨fun _ hs => exec_init_of_ne_uninitialized hs, fun s hs =>
    ⟨_, exec_init_of_uninitialized hs, initialise_view s, initialise_state s, initialise_diag s, initialise_frame s⟩⟩

/-- INIT writes `STATE`, the views and `DIAG` only. -/
theorem execInit_frame {s t : State} (h : execInit s = .next t) :
    t = { s with state := t.state, views := t.views, diag := t.diag } := by
  rw [execInit] at h
  cases h
  split
  · exact initialise_frame s
  · rfl

/-! ### The PACKED layout (R117) -/

theorem resBit_initialise (s : State) (r : Region) :
    resBit (initialise s) r = if s.regionEnd r ≤ s.blobLen.toNat then 1 else 0 := by
  rw [resBit, initialise_view]
  split <;> rfl

/-- The ranges of BLOB_LEN that the table tells apart. -/
theorem packed_ranges (len : Nat) : len < 16 ∨ (16 ≤ len ∧ len < 32) ∨ (32 ≤ len ∧ len < 288) ∨
    (288 ≤ len ∧ len < 304) ∨ (304 ≤ len ∧ len < 320) ∨ (320 ≤ len ∧ len < 321) ∨ 321 ≤ len := by
  omega

/-- Settles O17: the regions of PACKED end at 16, 32, 288, 304, 320 and 321, and each range of the table says which of
these ends lie in the blob. -/
theorem packedLayoutOutcome : Obligations.PackedLayoutOutcome := by
  intro s hs hoff
  have hends : s.regionEnd .w1 = 16 ∧ s.regionEnd .b1 = 32 ∧ s.regionEnd .w2 = 288 ∧ s.regionEnd .b2 = 304 ∧
      s.regionEnd .wout = 320 ∧ s.regionEnd .bout = 321 := by
    simp only [State.regionEnd, State.offset, hoff]
    decide
  obtain ⟨hw1, hb1, hw2, hb2, hwout, hbout⟩ := hends
  have hall : (∀ r ∈ regionsInOrder, s.regionEnd r ≤ s.blobLen.toNat) ↔ ¬ s.blobLen.toNat < 321 := by
    simp only [regionsInOrder, List.forall_mem_cons, hw1, hb1, hw2, hb2, hwout, hbout, List.not_mem_nil, false_implies,
      implies_true, and_true]
    omega
  refine ⟨_, exec_init_of_uninitialized hs, ?bits, ?records, ?state⟩
  case state =>
    rw [initialise_state, if_congr hall rfl rfl, ite_not]
  case bits =>
    simp only [resBits, resBit_initialise, hw1, hb1, hw2, hb2, hwout, hbout, BitVec.toNat_ofNat]
    generalize s.blobLen.toNat = len
    rcases packed_ranges len with h | h | h | h | h | h | h <;> simp (disch := omega) only [if_pos, if_neg]
  case records =>
    simp only [initialise_diag, List.length_append, List.length_map, regionsInOrder, List.filter_cons, List.filter_nil,
      hw1, hb1, hw2, hb2, hwout, hbout, decide_eq_true_eq]
    generalize s.blobLen.toNat = len
    rcases packed_ranges len with h | h | h | h | h | h | h <;> simp (disch := omega) only [if_pos, if_neg] <;> rfl

/-! ### RESET and NOP -/

/-- Settles O9. -/
theorem nopChangesNothing : Obligations.NopChangesNothing := fun _ => rfl

/-- Settles O10. -/
theorem resetEventRestoresEngine : Obligations.ResetEventRestoresEngine :=
  fun _ => ⟨_, rfl, rfl, PerRegion.get_all _, rfl, rfl⟩

/-- RESET writes `STATE`, the views, `DIAG`, X, Y and the count of draws only. -/
theorem execReset_frame {s t : State} (h : exec .reset s = .next t) :
    t = { s with state := t.state, views := t.views, diag := t.diag, x := t.x, y := t.y, draws := t.draws } := by
  cases h
  rfl

theorem reset_view (r : Region) : State.reset.view r = .unresolved := by
  cases r <;> rfl

/-- Settles O11. -/
theorem resetStateHasStatedValues : Obligations.ResetStateHasStatedValues :=
  ⟨rfl, reset_view, rfl, rfl, rfl⟩

/-! ### What every step keeps -/

/-- A step takes the oldest pending event and adds none. -/
theorem step_events {s t : State} (h : step s = .next t) : t.events = s.events.tail := by
  obtain ⟨rest, he, hreset⟩ | ⟨rest, he, hinit⟩ | ⟨-, htail, -⟩ := step_cases h
  · rw [execReset_frame hreset, he]
    rfl
  · rw [execInit_frame hinit, he]
    rfl
  · exact htail

/-- No step writes the build's parameters (P_CONST). -/
theorem step_keeps_parameters {s t : State} (h : step s = .next t) :
    t.blobLen = s.blobLen ∧ t.offsets = s.offsets ∧ t.mem = s.mem := by
  obtain ⟨rest, -, hreset⟩ | ⟨rest, -, hinit⟩ | ⟨hframe, -⟩ := step_cases h
  · rw [execReset_frame hreset]
    exact ⟨rfl, rfl, rfl⟩
  · rw [execInit_frame hinit]
    exact ⟨rfl, rfl, rfl⟩
  · rw [hframe]
    exact ⟨rfl, rfl, rfl⟩

/-- Settles O55. -/
theorem stepKeepsBuildParameters : Obligations.StepKeepsBuildParameters := by
  intro s t h
  obtain ⟨hlen, hoff, hmem⟩ := step_keeps_parameters h
  exact ⟨hlen, hoff, fun a => by rw [hmem]⟩

/-- INIT only adds records, whatever `STATE` is (R114, R115). -/
theorem execInit_diag_prefix {s t : State} (h : execInit s = .next t) : s.diag <+: t.diag := by
  rw [execInit] at h
  cases h
  split
  · rw [initialise_diag]
    exact List.prefix_append _ _
  · exact List.prefix_append _ _

/-- Settles O58. -/
theorem diagOnlyGrows : Obligations.DiagOnlyGrows := by
  intro s t hreset h
  obtain ⟨rest, he, -⟩ | ⟨rest, he, hinit⟩ | ⟨hframe, -⟩ := step_cases h
  · exact absurd he (hreset rest)
  · have hprefix := execInit_diag_prefix hinit
    exact ⟨hprefix, fun hno => absurd he (hno rest)⟩
  · rw [hframe]
    exact ⟨List.prefix_rfl, fun _ => rfl⟩

/-- A run that reaches a state has made its first step. -/
theorem run_succ {k : Nat} {s t : State} (h : Host.Core.run Sys2Proof.core (k + 1) s = .next t) :
    ∃ u, step s = .next u ∧ Host.Core.run Sys2Proof.core k u = .next t := by
  simp only [Host.Core.run] at h
  split at h
  next u hu => exact ⟨u, hu, h⟩
  next => cases h
  next => cases h

/-- Settles O59: by induction on the number of steps, each of which keeps `STATE` and the views and adds no event. -/
theorem degradedUntilReset : Obligations.DegradedUntilReset := by
  intro k
  induction k with
  | zero =>
    intro s t hs _ h
    cases h
    exact ⟨hs, rfl⟩
  | succ k ih =>
    intro s t hs hreset h
    obtain ⟨u, hstep, hrun⟩ := run_succ h
    have hnot (es : List HostEvent) : s.events ≠ .reset :: es := fun he => hreset (by simp [he])
    obtain ⟨hstate, hviews⟩ := step_keeps_state_and_views (by simp [hs]) hnot hstep
    have hreset' : HostEvent.reset ∉ u.events := fun hmem => hreset (List.mem_of_mem_tail (step_events hstep ▸ hmem))
    obtain ⟨ht, hv⟩ := ih u t (hstate.trans hs) hreset' hrun
    exact ⟨ht, hv.trans hviews⟩

/-! ### The invariant (R34, R23) -/

/-- A state with no view resolved meets the invariant before INIT. -/
theorem inv_of_unresolved {s : State} (hblob : s.blobOk = true) (hs : s.state = .uninitialized)
    (hviews : ∀ r, s.view r = .unresolved) : s.Inv := by
  refine ⟨hblob, ?_, ?_⟩
  · simp [State.stateOk, hs, hviews, View.isResolved]
  · simp [State.viewOk, hviews]

@[simp] theorem initialise_offset (s : State) (r : Region) : (initialise s).offset r = s.offset r := by
  rw [initialise_frame]
  rfl

@[simp] theorem initialise_blobLen (s : State) : (initialise s).blobLen = s.blobLen := by
  rw [initialise_frame]

theorem initialise_blobOk (s : State) : (initialise s).blobOk = s.blobOk := by
  rw [initialise_frame]
  rfl

/-- A view that INIT resolves is its region of the table, inside the blob (R23). -/
theorem initialise_viewOk (s : State) (r : Region) : (initialise s).viewOk r = true := by
  rw [State.viewOk, initialise_view]
  by_cases h : s.regionEnd r ≤ s.blobLen.toNat
  · have hin : (s.offset r).toNat + (regionSize r).toNat ≤ s.blobLen.toNat := h
    simp [h, hin]
  · simp [h]

/-- INIT makes `V[r].res` the bounds check (R34 item 4). -/
theorem initialise_resAgrees (s : State) (r : Region) : (initialise s).resAgrees r = true := by
  rw [State.resAgrees, initialise_offset, initialise_blobLen, beq_iff_eq, Bool.eq_iff_iff, valid_region_iff,
    initialise_view]
  split <;> simp [View.isResolved, *]

/-- INIT from Uninitialized leaves a state that meets the invariant. -/
theorem initialise_inv {s : State} (h : s.blobOk = true) : (initialise s).Inv := by
  have hagree : regionsInOrder.all (initialise s).resAgrees = true :=
    List.all_eq_true.2 fun r _ => initialise_resAgrees s r
  refine ⟨by rw [initialise_blobOk, h], ?_, List.all_eq_true.2 fun r _ => initialise_viewOk s r⟩
  by_cases hall : ∀ r ∈ regionsInOrder, s.regionEnd r ≤ s.blobLen.toNat
  · have hres : regionsInOrder.all (fun r => ((initialise s).view r).isResolved) = true :=
      List.all_eq_true.2 fun r hr => initialise_view_isResolved (hall r hr)
    rw [State.stateOk, initialise_state, if_pos hall]
    simp only [hres, hagree, Bool.and_self]
  · have hres : regionsInOrder.any (fun r => !((initialise s).view r).isResolved) = true := by
      push Not at hall
      obtain ⟨r, hr, hlt⟩ := hall
      exact List.any_eq_true.2 ⟨r, hr, by rw [initialise_view_of_lt hlt]; rfl⟩
    rw [State.stateOk, initialise_state, if_neg hall]
    simp only [hres, hagree, Bool.and_self]

theorem execInit_inv {s t : State} (hinv : s.Inv) (h : execInit s = .next t) : t.Inv := by
  rw [execInit] at h
  cases h
  split
  · exact initialise_inv hinv.1
  · exact hinv

/-- Settles O51. -/
theorem resetMeetsInvariant : Obligations.ResetMeetsInvariant := inv_of_unresolved rfl rfl reset_view

/-- Settles O50: RESET leaves no view resolved, INIT resolves the views that its bounds checks allow, and the other steps
write nothing the invariant speaks of. -/
theorem stepKeepsInvariant : Obligations.StepKeepsInvariant := by
  intro s t hinv h
  obtain ⟨rest, -, hreset⟩ | ⟨rest, -, hinit⟩ | ⟨hframe, -⟩ := step_cases h
  · cases hreset
    exact inv_of_unresolved hinv.1 rfl (PerRegion.get_all _)
  · have htaken : (s.setEvents rest).Inv := hinv
    exact execInit_inv htaken hinit
  · rw [hframe]
    exact hinv

/-! ### Memory safety (R61) and liveness -/

/-- In Ready the invariant gives every element read its precondition (R34, R61). -/
theorem State.Inv.viewReady {s : State} (hinv : s.Inv) (hs : s.state = .ready) (r : Region) : s.ViewReady r := by
  obtain ⟨-, hstate, hviews⟩ := hinv
  have hr := mem_regionsInOrder r
  have hok := List.all_eq_true.1 hviews r hr
  rw [State.stateOk, hs] at hstate
  have hres := List.all_eq_true.1 (Bool.and_eq_true_iff.1 hstate).1 r hr
  rw [State.viewOk] at hok
  cases hview : s.view r with
  | unresolved =>
    rw [hview] at hres
    cases hres
  | resolved base len =>
    simp only [hview, Bool.and_eq_true, decide_eq_true_eq] at hok
    obtain ⟨⟨rfl, rfl⟩, hin⟩ := hok
    exact ⟨hview, hin⟩

/-- Settles O53. -/
theorem readyMeansViewsInsideBlob : Obligations.ReadyMeansViewsInsideBlob := fun _ hinv hs => hinv.viewReady hs

/-- From a state that meets the invariant RUN completes, whatever `STATE` and X are. -/
theorem run_completes {s : State} (hinv : s.Inv) : ∃ t, exec .run s = .next t := by
  by_cases hs : s.state = .ready
  · obtain ⟨c, hc, -⟩ := forward_computes (quantize s.x s).1 (hinv.viewReady hs)
    exact ⟨_, exec_run_of_forward hs hc⟩
  · exact ⟨_, exec_run_of_not_ready hs⟩

theorem serveRead_no_fault (n : Nat) (s : State) : isFault (serveRead n s) = false := by
  rw [serveRead]
  split <;> rfl

theorem writeRegister_no_fault (n : Nat) (v : Word) (s : State) : isFault (writeRegister s n v) = false := by
  rw [writeRegister]
  split
  · rfl
  · split <;> rfl

theorem toPattern_no_fault (y : F32) (s : State) : isFault (exec (.toPattern y) s) = false := by
  rw [exec, execToPattern]
  split <;> rfl

/-- From a state that meets the invariant no command word faults; only RUN reads elements. -/
theorem command_no_fault {s : State} (hinv : s.Inv) (w : Word) : isFault (exec (decode w) s) = false := by
  rcases decode_cases w with h | h | h | h <;> rw [h]
  case inr.inr.inl =>
    obtain ⟨t, ht⟩ := run_completes hinv
    rw [ht]
    rfl
  all_goals rfl

/-- Settles O52: of all events only a write of RUN reads elements. -/
theorem stepNeverFaults : Obligations.StepNeverFaults := by
  intro s hinv
  cases he : s.events with
  | nil => rw [step_idle he]; rfl
  | cons e rest =>
    have htaken : (s.setEvents rest).Inv := hinv
    rw [step_serves he]
    cases e with
    | reset => rfl
    | readDiag => rfl
    | readReg n => exact serveRead_no_fault _ _
    | pattern y => exact toPattern_no_fault _ _
    | writeReg n v =>
      rw [serve, serveWrite]
      split
      · exact command_no_fault htaken v
      · exact writeRegister_no_fault _ _ _

/-- Settles O54. -/
theorem commandsAlwaysComplete : Obligations.CommandsAlwaysComplete := by
  intro s w es hinv hw he
  have htaken : (s.setEvents es).Inv := hinv
  have hstep : ∃ t, step s = .next t := by
    rw [step_of_command he]
    rcases reserved_or_command w with hr | rfl | rfl | rfl
    · omega
    · exact ⟨_, rfl⟩
    · exact ⟨_, rfl⟩
    · exact run_completes htaken
  obtain ⟨t, ht⟩ := hstep
  exact ⟨t, ht, by rw [step_events ht, he]; rfl⟩

/-! ### The operations that only compute (R236) -/

theorem answering_frame {s t : State} {e : Except Fault Reply} (h : answering s e = .next t) :
    t = { s with reply := t.reply, draws := t.draws } ∧ t.reply ≠ none := by
  obtain ⟨v, -, rfl⟩ := answering_next h
  exact ⟨rfl, nofun⟩

/-- Settles O60. -/
theorem arithmeticLeavesEngine : Obligations.ArithmeticLeavesEngine := by
  intro i s t hnop hinit hrun hreset hresolve h
  cases i with
  | nop => exact absurd rfl hnop
  | init => exact absurd rfl hinit
  | run => exact absurd rfl hrun
  | reset => exact absurd rfl hreset
  | resolve r => exact absurd rfl (hresolve r)
  | reserved w => cases h
  | valid | mac | divt32 | reluClamp | symClamp | dequantize => exact answering_frame (e := .ok _) h
  | dense1 | forward => exact answering_frame h
  | dense2 l =>
    rw [exec, execDense2] at h
    split at h
    · exact answering_frame h
    · cases h
  | denseOut l =>
    rw [exec, execDenseOut] at h
    split at h
    · exact answering_frame h
    · cases h
  | quantize x =>
    rw [exec, execQuantize] at h
    cases h
    rcases quantize_state x s with e | e <;> rw [e] <;> exact ⟨rfl, nofun⟩
  | toPattern y =>
    rw [exec, execToPattern] at h
    split at h <;> cases h <;> exact ⟨rfl, nofun⟩

end Sys2Proof.Machine
end

section
/-! Proofs about the binary32 arithmetic (00_scope.md R6, 30_encoding.md R83, D7): a quotient is rounded to the nearest
magnitude of 24 bits, each operation rounds its exact result so, and a pattern's number, sign and kind are those of
`Reference.f32Value`. -/

namespace Sys2Proof.Machine

open Reference

/-! ### Rounding a quotient to an integer -/

/-- Half way between two integers the even one is taken. -/
theorem roundHalfEven_half {num den a : Nat} (hd : 0 < den) (h : 2 * num = (2 * a + 1) * den) :
    roundHalfEven num den = a + a % 2 := by
  have heven : den % 2 = 0 := by
    have hprod : ((2 * a + 1) * den) % 2 = 0 := by omega
    rw [Nat.mul_mod, show (2 * a + 1) % 2 = 1 by omega] at hprod
    omega
  obtain ⟨r, rfl⟩ : ∃ r, den = 2 * r := ⟨den / 2, by omega⟩
  obtain rfl : num = 2 * r * a + r := by
    have hexp : (2 * a + 1) * (2 * r) = 2 * (2 * r * a + r) := by ring
    omega
  have hr : r < 2 * r := by omega
  have hdiv : (2 * r * a + r) / (2 * r) = a := by
    rw [Nat.mul_add_div hd, Nat.div_eq_of_lt hr, add_zero]
  have hmod : (2 * r * a + r) % (2 * r) = r := by
    rw [Nat.mul_add_mod, Nat.mod_eq_of_lt hr]
  simp [roundHalfEven, hdiv, hmod]

/-- The quotient is kept when the remainder is at most half the divisor, and raised only when it is at least half. -/
theorem roundHalfEven_cases (num den : Nat) :
    (roundHalfEven num den = num / den ∧ 2 * (num % den) ≤ den) ∨
    (roundHalfEven num den = num / den + 1 ∧ den ≤ 2 * (num % den)) := by
  simp only [roundHalfEven]
  split_ifs <;> omega

theorem cast_div_eq_quotient_add (num : Nat) {den : Nat} (hd : 0 < den) :
    (num : ℚ) / den = (num / den : Nat) + ((num % den : Nat) : ℚ) / den := by
  have hd' : (den : ℚ) ≠ 0 := by exact_mod_cast hd.ne'
  rw [div_eq_iff hd', add_mul, div_mul_cancel₀ _ hd']
  exact_mod_cast (Nat.div_add_mod' num den).symm

/-- A quotient is at most 1/2 from the integer it is rounded to. -/
theorem roundHalfEven_error (num : Nat) {den : Nat} (hd : 0 < den) :
    |(num : ℚ) / den - roundHalfEven num den| ≤ 1 / 2 := by
  have hd' : (0 : ℚ) < den := by exact_mod_cast hd
  rw [cast_div_eq_quotient_add num hd, abs_le]
  obtain ⟨hround, hr⟩ | ⟨hround, hr⟩ := roundHalfEven_cases num den
  · have hfrac : ((num % den : Nat) : ℚ) / den ≤ 1 / 2 := by
      rw [div_le_div_iff₀ hd' two_pos]
      exact_mod_cast (by omega)
    have hnonneg : (0 : ℚ) ≤ ((num % den : Nat) : ℚ) / den := by positivity
    rw [hround]
    constructor <;> linarith
  · have hfrac : 1 / 2 ≤ ((num % den : Nat) : ℚ) / den := by
      rw [div_le_div_iff₀ two_pos hd']
      exact_mod_cast (by omega)
    have hlt : ((num % den : Nat) : ℚ) / den ≤ 1 := by
      rw [div_le_one hd']
      exact_mod_cast (Nat.mod_lt num hd).le
    rw [hround, Nat.cast_add, Nat.cast_one]
    constructor <;> linarith

/-- No integer lies nearer to a quotient than the one it is rounded to. -/
theorem roundHalfEven_nearest (num : Nat) {den : Nat} (hd : 0 < den) (c : Nat) :
    |(num : ℚ) / den - roundHalfEven num den| ≤ |(num : ℚ) / den - c| := by
  have herr := roundHalfEven_error num hd
  by_cases hc : c = roundHalfEven num den
  · rw [hc]
  · have hone : (1 : ℚ) ≤ |(roundHalfEven num den : ℚ) - c| := by
      have hne : ((roundHalfEven num den : Int) - c) ≠ 0 := by omega
      exact_mod_cast Int.one_le_abs hne
    have htri := abs_sub_le (roundHalfEven num den : ℚ) ((num : ℚ) / den) c
    rw [abs_sub_comm (roundHalfEven num den : ℚ) ((num : ℚ) / den)] at htri
    linarith

/-! ### Rounding a quotient to 24 bits -/

/-- The shift is the one that leaves 24 bits. -/
theorem log2_sub_eq {n j : Nat} (hlo : j = 0 ∨ 2 ^ (23 + j) ≤ n) (hhi : n < 2 ^ (24 + j)) : Nat.log2 n - 23 = j := by
  by_cases h0 : n = 0
  · subst h0
    have := Nat.two_pow_pos (23 + j)
    have : Nat.log2 0 = 0 := by decide
    omega
  · have hup : Nat.log2 n < 24 + j := (Nat.log2_lt h0).2 hhi
    rcases hlo with rfl | hlo
    · omega
    · have := (Nat.le_log2 h0).2 hlo
      omega

/-- `roundMag` is `roundHalfEven` of the quotient counted in units of `2 ^ k`. -/
theorem roundMag_eq_mul (num den : Nat) :
    roundMag num den = roundHalfEven num (den * 2 ^ (Nat.log2 (num / den) - 23)) * 2 ^ (Nat.log2 (num / den) - 23) := rfl

theorem roundMag_has_24_bits (num den : Nat) : ∃ sig k, roundMag num den = sig * 2 ^ k ∧ sig < 2 ^ 24 := by
  have hle := roundMag_le num den
  rw [roundMag_eq_mul] at hle ⊢
  generalize Nat.log2 (num / den) - 23 = k at *
  generalize roundHalfEven num (den * 2 ^ k) = sig at *
  rw [pow_add] at hle
  have hsig : sig ≤ 2 ^ 24 := Nat.le_of_mul_le_mul_right hle (Nat.two_pow_pos k)
  rcases hsig.lt_or_eq with hlt | rfl
  · exact ⟨sig, k, rfl, hlt⟩
  · exact ⟨2 ^ 23, k + 1, by ring, by decide⟩

/-- A distance counted in units of `2 ^ k`. -/
theorem abs_quotient_sub_mul (num den k : Nat) (c : ℚ) :
    |(num : ℚ) / den - c * 2 ^ k| = |(num : ℚ) / (den * 2 ^ k : Nat) - c| * 2 ^ k := by
  have hpow : (0 : ℚ) < 2 ^ k := by positivity
  rw [← abs_of_pos hpow, ← abs_mul, abs_of_pos hpow, sub_mul, Nat.cast_mul, Nat.cast_pow, Nat.cast_two, ← div_div,
    div_mul_cancel₀ _ hpow.ne']

/-- Among the multiples of a unit `2 ^ j` that is not finer than the shift's, none lies nearer. -/
theorem roundMag_nearest_of_le {num den j : Nat} (hd : 0 < den) (hj : Nat.log2 (num / den) - 23 ≤ j) (sig : Nat) :
    |(num : ℚ) / den - roundMag num den| ≤ |(num : ℚ) / den - (sig * 2 ^ j : ℚ)| := by
  rw [roundMag_eq_mul]
  generalize Nat.log2 (num / den) - 23 = k at *
  obtain ⟨d, rfl⟩ := Nat.exists_eq_add_of_le hj
  have hnear := roundHalfEven_nearest num (Nat.mul_pos hd (Nat.two_pow_pos k)) (sig * 2 ^ d)
  have hsig : (sig : ℚ) * 2 ^ (k + d) = (sig * 2 ^ d : Nat) * 2 ^ k := by
    push_cast
    ring
  rw [Nat.cast_mul, Nat.cast_pow, Nat.cast_two, hsig, abs_quotient_sub_mul, abs_quotient_sub_mul]
  exact mul_le_mul_of_nonneg_right hnear (by positivity)

/-- No magnitude of 24 bits lies nearer to a quotient than the one it is rounded to: one with a finer unit than the shift's
is below `2 ^ (23 + k)`, which is not above the quotient. -/
theorem roundMag_nearest {num den : Nat} (hd : 0 < den) {sig : Nat} (hsig : sig < 2 ^ 24) (j : Nat) :
    |(num : ℚ) / den - roundMag num den| ≤ |(num : ℚ) / den - (sig * 2 ^ j : ℚ)| := by
  by_cases hj : Nat.log2 (num / den) - 23 ≤ j
  · exact roundMag_nearest_of_le hd hj sig
  · have hcoarse := roundMag_nearest_of_le (num := num) hd le_rfl (2 ^ 23)
    obtain ⟨-, hk⟩ | ⟨hge, -⟩ := shift_cases (num / den)
    · omega
    · generalize Nat.log2 (num / den) - 23 = k at *
      have hv : ((2 ^ 23 : Nat) * 2 ^ k : ℚ) ≤ (num : ℚ) / den := by
        rw [le_div_iff₀ (by exact_mod_cast hd)]
        exact_mod_cast (pow_add 2 23 k ▸ (Nat.le_div_iff_mul_le hd).1 hge)
      have hfine : (sig * 2 ^ j : ℚ) ≤ (2 ^ 23 : Nat) * 2 ^ k := by
        have hstep : sig * 2 ^ j ≤ 2 ^ 23 * 2 ^ k := by
          calc sig * 2 ^ j ≤ 2 ^ 24 * 2 ^ j := Nat.mul_le_mul_right _ hsig.le
            _ = 2 ^ 23 * 2 ^ (j + 1) := by ring
            _ ≤ 2 ^ 23 * 2 ^ k := Nat.mul_le_mul_left _ (Nat.pow_le_pow_right two_pos (by omega))
        exact_mod_cast hstep
      refine hcoarse.trans ?_
      rw [abs_of_nonneg (sub_nonneg.2 hv), abs_of_nonneg (sub_nonneg.2 (hfine.trans hv))]
      exact sub_le_sub_left hfine _

/-- A quotient below `2 ^ (24 + j)`, or at it, moves by at most half of `2 ^ j`. -/
theorem roundMag_error {num den j : Nat} (hd : 0 < den) (h : num ≤ 2 ^ (24 + j) * den) :
    |(num : ℚ) / den - roundMag num den| ≤ 2 ^ j / 2 := by
  have hd' : 0 < den * 2 ^ j := Nat.mul_pos hd (Nat.two_pow_pos j)
  have hnear : |(num : ℚ) / den - roundHalfEven num (den * 2 ^ j) * 2 ^ j| ≤ 2 ^ j / 2 := by
    rw [abs_quotient_sub_mul]
    calc |(num : ℚ) / (den * 2 ^ j : Nat) - roundHalfEven num (den * 2 ^ j)| * 2 ^ j
        ≤ 1 / 2 * 2 ^ j := mul_le_mul_of_nonneg_right (roundHalfEven_error num hd') (by positivity)
      _ = 2 ^ j / 2 := by ring
  have hsig : roundHalfEven num (den * 2 ^ j) ≤ 2 ^ 24 := by
    rw [← roundHalfEven_exact (2 ^ 24) _ hd']
    refine roundHalfEven_mono _ (h.trans_eq ?_)
    ring
  refine le_trans ?_ hnear
  rcases hsig.lt_or_eq with hlt | heq
  · exact roundMag_nearest hd hlt j
  · have htop : ((2 ^ 24 : Nat) : ℚ) * 2 ^ j = ((2 ^ 23 : Nat) : ℚ) * 2 ^ (j + 1) := by
      push_cast
      ring
    rw [heq, htop]
    exact roundMag_nearest hd (by decide) (j + 1)

/-- A tie goes to the even significand. -/
theorem roundMag_half {num den a j : Nat} (hd : 0 < den) (ha : a < 2 ^ 24) (hj : j = 0 ∨ 2 ^ 23 ≤ a)
    (h : 2 * num = (2 * a + 1) * (den * 2 ^ j)) : roundMag num den = (a + a % 2) * 2 ^ j := by
  have hpow := Nat.two_pow_pos j
  have hk : Nat.log2 (num / den) - 23 = j := by
    refine log2_sub_eq (hj.imp_right fun ha' => ?_) ?_
    · rw [Nat.le_div_iff_mul_le hd, pow_add]
      nlinarith [Nat.mul_le_mul_right (den * 2 ^ j) ha']
    · rw [Nat.div_lt_iff_lt_mul hd, pow_add]
      nlinarith [Nat.mul_le_mul_right (den * 2 ^ j) (Nat.succ_le_of_lt ha), Nat.mul_pos hd hpow]
  rw [roundMag_eq_mul, hk, roundHalfEven_half (Nat.mul_pos hd hpow) h]

/-- Rounding a fraction is rounding to nearest, ties to even (D7). -/
theorem roundMag_isRounding (num : Nat) {den : Nat} (hd : 0 < den) : IsRounding ((num : ℚ) / den) (roundMag num den) := by
  refine ⟨roundMag_has_24_bits num den, fun sig j hsig => roundMag_nearest hd hsig j, fun a j ha hj hv => ?_⟩
  have hd' : (den : ℚ) ≠ 0 := by exact_mod_cast hd.ne'
  have htie : 2 * num = (2 * a + 1) * (den * 2 ^ j) := by
    rw [div_eq_iff hd'] at hv
    have hv' : 2 * (num : ℚ) = (2 * a + 1) * (den * 2 ^ j) := by
      rw [hv]
      ring
    exact_mod_cast hv'
  have heven : (if a % 2 = 0 then a else a + 1) = a + a % 2 := by split <;> omega
  rw [roundMag_half hd ha hj htie, heven]

end Sys2Proof.Machine
end

section
/-! More proofs about the binary32 arithmetic (D7): the operations round their exact results, and unpacking a pattern keeps its
number (R83). -/

namespace Sys2Proof.Machine

open Reference

/-! ### The operations -/

theorem limit_eq : Fp.limit = 2 ^ 277 := by rw [Fp.limit, ← pow_add]

/-- A value whose magnitude is `num / den` units is rounded by `Fp.round` (D7). -/
theorem round_roundsTo (neg : Bool) {num den : Nat} {v : ℚ} (hd : 0 < den) (hv : |v| * 2 ^ 149 = (num : ℚ) / den) :
    RoundsTo neg v (Fp.round neg num den) :=
  ⟨roundMag num den, hv ▸ roundMag_isRounding num hd, by rw [Fp.round, limit_eq]⟩

theorem signedMag_not (n : Bool) (m : Nat) : signedMag (!n) m = -signedMag n m := by
  cases n <;> simp [signedMag]

theorem fpValue_fin (n : Bool) (m : Nat) : fpValue (.fin n m) = some ((signedMag n m : ℚ) / 2 ^ 149) := by
  cases n <;> simp [fpValue, signedMag]

/-- Only a finite value stands for a number, and it counts the number's units. -/
theorem fin_of_fpValue {a : Fp} {v : ℚ} (h : fpValue a = some v) :
    ∃ n m, a = .fin n m ∧ v = (signedMag n m : ℚ) / 2 ^ 149 := by
  cases a with
  | nan => cases h
  | inf n => cases h
  | fin n m =>
    rw [fpValue_fin] at h
    exact ⟨n, m, rfl, (Option.some.inj h).symm⟩

theorem abs_cast_signedMag (n : Bool) (m : Nat) : |(signedMag n m : ℚ)| = m := by
  rw [← Int.cast_abs, ← Nat.cast_natAbs, natAbs_signedMag]

theorem cast_unit : ((Fp.unit : Nat) : ℚ) = 2 ^ 149 := by
  rw [Fp.unit]
  norm_num

theorem mul_roundsTo (na nb : Bool) (ma mb : Nat) :
    RoundsTo (na ^^ nb) ((signedMag na ma : ℚ) / 2 ^ 149 * ((signedMag nb mb : ℚ) / 2 ^ 149))
      (Fp.mul (.fin na ma) (.fin nb mb)) := by
  refine round_roundsTo _ unit_pos ?_
  rw [abs_mul, abs_div, abs_div, abs_cast_signedMag, abs_cast_signedMag, cast_unit, abs_of_pos (by positivity)]
  push_cast
  field_simp

theorem div_roundsTo (na nb : Bool) (ma : Nat) {mb : Nat} (hb : mb ≠ 0) :
    RoundsTo (na ^^ nb) ((signedMag na ma : ℚ) / 2 ^ 149 / ((signedMag nb mb : ℚ) / 2 ^ 149))
      (Fp.div (.fin na ma) (.fin nb mb)) := by
  rw [Fp.div, if_neg hb]
  refine round_roundsTo _ (Nat.pos_of_ne_zero hb) ?_
  rw [div_div_div_cancel_right₀ (by positivity), abs_div, abs_cast_signedMag, abs_cast_signedMag, Nat.cast_mul, cast_unit,
    div_mul_eq_mul_div]

theorem round_zero (neg : Bool) : Fp.round neg 0 1 = .fin neg 0 := by
  cases neg <;> decide +kernel

/-- An exact zero sum is -0.0 when both operands are, else +0.0; another sum has its own sign (D7). -/
theorem add_roundsTo (na nb : Bool) (ma mb : Nat) {v : ℚ}
    (hv : v = (signedMag na ma : ℚ) / 2 ^ 149 + (signedMag nb mb : ℚ) / 2 ^ 149) :
    RoundsTo (if v = 0 then na && nb else decide (v < 0)) v (Fp.add (.fin na ma) (.fin nb mb)) := by
  have hv' : v = ((signedMag na ma + signedMag nb mb : Int) : ℚ) / 2 ^ 149 := by
    rw [hv]
    push_cast
    ring
  have hzero : v = 0 ↔ signedMag na ma + signedMag nb mb = 0 := by
    rw [hv', div_eq_zero_iff, or_iff_left (by positivity), Int.cast_eq_zero]
  have hneg : v < 0 ↔ signedMag na ma + signedMag nb mb < 0 := by
    rw [hv', div_lt_iff₀ (by positivity), zero_mul]
    exact_mod_cast Iff.rfl
  simp only [Fp.add, hzero, hneg]
  split
  case isTrue h =>
    rw [hzero.2 h, ← round_zero]
    exact round_roundsTo _ one_pos (by simp)
  case isFalse h =>
    refine round_roundsTo _ one_pos ?_
    rw [hv', abs_div, ← Int.cast_abs, ← Nat.cast_natAbs, abs_of_pos (by positivity : (0 : ℚ) < 2 ^ 149), Nat.cast_one,
      div_one, div_mul_cancel₀ _ (by positivity)]

theorem sub_roundsTo (na nb : Bool) (ma mb : Nat) {v : ℚ}
    (hv : v = (signedMag na ma : ℚ) / 2 ^ 149 - (signedMag nb mb : ℚ) / 2 ^ 149) :
    RoundsTo (if v = 0 then na && !nb else decide (v < 0)) v (Fp.sub (.fin na ma) (.fin nb mb)) := by
  refine add_roundsTo na (!nb) ma mb ?_
  rw [hv, signedMag_not]
  push_cast
  ring

theorem ofInt_roundsTo (z : Int) : RoundsTo (decide (z < 0)) z (Fp.ofInt z) := by
  refine round_roundsTo _ one_pos ?_
  rw [Nat.cast_mul, cast_unit, Nat.cast_natAbs, Int.cast_abs, Nat.cast_one, div_one]

/-! ### Patterns -/

/-- The sign, exponent and fraction fields of a pattern (R83), as its number gives them. -/
theorem pattern_fields (b : F32) : b.getLsbD 31 = decide (2 ^ 31 ≤ b.toNat) ∧
    (b.extractLsb' 23 8).toNat = b.toNat / 2 ^ 23 % 256 ∧ (b.extractLsb' 0 23).toNat = b.toNat % 2 ^ 23 := by
  have hb := b.isLt
  refine ⟨?_, ?_, ?_⟩
  · rw [BitVec.getLsbD, Nat.testBit_eq_decide_div_mod_eq, decide_eq_decide]
    omega
  · rw [BitVec.extractLsb'_toNat, Nat.shiftRight_eq_div_pow]
  · rw [BitVec.extractLsb'_toNat, Nat.shiftRight_zero]

/-- The units of a pattern whose low 31 bits are `n`: subnormal, normal, and at the exponent field 255 the least magnitude
that is not finite (R83). -/
def patternMag (n : Nat) : Nat := if n < 2 ^ 23 then n else (2 ^ 23 + n % 2 ^ 23) * 2 ^ (n / 2 ^ 23 - 1)

/-- The kinds of a pattern: a finite value, an infinity, or a NaN. -/
theorem decode_kinds (b : F32) :
    (b.toNat % 2 ^ 31 < 0x7F800000 ∧ Fp.decode b = .fin (decide (2 ^ 31 ≤ b.toNat)) (patternMag (b.toNat % 2 ^ 31))) ∨
    (b.toNat % 2 ^ 31 = 0x7F800000 ∧ Fp.decode b = .inf (decide (2 ^ 31 ≤ b.toNat))) ∨
    (0x7F800000 < b.toNat % 2 ^ 31 ∧ Fp.decode b = .nan) := by
  have hb := b.isLt
  have he : b.toNat % 2 ^ 31 / 2 ^ 23 = b.toNat / 2 ^ 23 % 256 := by omega
  have hf : b.toNat % 2 ^ 31 % 2 ^ 23 = b.toNat % 2 ^ 23 := by omega
  simp only [Fp.decode]
  by_cases h255 : b.toNat / 2 ^ 23 % 256 = 255
  · by_cases h0 : b.toNat % 2 ^ 23 = 0
    · exact .inr (.inl ⟨by omega, by rw [if_pos h255, if_pos h0]⟩)
    · exact .inr (.inr ⟨by omega, by rw [if_pos h255, if_neg h0]⟩)
  · refine .inl ⟨by omega, ?_⟩
    rw [if_neg h255, patternMag, he, hf]
    by_cases h0 : b.toNat / 2 ^ 23 % 256 = 0
    · rw [if_pos h0, if_pos (by omega)]
      congr 1
      omega
    · rw [if_neg h0, if_neg (by omega)]

/-- Packing finds the low 31 bits again: the shift is the exponent field less one. -/
theorem magBits_patternMag (n : Nat) : Fp.magBits (patternMag n) = n := by
  rw [patternMag]
  split
  case isTrue h =>
    have hk : Nat.log2 n - 23 = 0 := log2_sub_eq (.inl rfl) (by omega)
    simp [Fp.magBits, hk]
  case isFalse h =>
    have hpow := Nat.two_pow_pos (n / 2 ^ 23 - 1)
    have hk : Nat.log2 ((2 ^ 23 + n % 2 ^ 23) * 2 ^ (n / 2 ^ 23 - 1)) - 23 = n / 2 ^ 23 - 1 := by
      refine log2_sub_eq (.inr ?_) ?_ <;> rw [pow_add]
      · exact Nat.mul_le_mul_right _ (by omega)
      · exact Nat.mul_lt_mul_of_pos_right (by omega) hpow
    rw [Fp.magBits]
    simp only [hk, Nat.mul_div_cancel _ hpow]
    omega

theorem isNaN_iff (b : F32) : isNaN b = true ↔ 0x7F800000 < b.toNat % 2 ^ 31 := by
  rw [isNaN, decide_eq_true_iff]
  obtain ⟨h, hd⟩ | ⟨h, hd⟩ | ⟨h, hd⟩ := decode_kinds b <;> rw [hd] <;> simp <;> omega

/-- Packing undoes unpacking. -/
theorem encode_decode {b : F32} (h : isNaN b = false) : Fp.encode (Fp.decode b) = b := by
  have hb := b.isLt
  have hnum : ¬ 0x7F800000 < b.toNat % 2 ^ 31 := by rw [← isNaN_iff, h]; decide
  have hsign : (if decide (2 ^ 31 ≤ b.toNat) then 2 ^ 31 else 0) + b.toNat % 2 ^ 31 = b.toNat := by
    by_cases hs : 2 ^ 31 ≤ b.toNat <;> simp only [hs, decide_true, decide_false] <;> simp <;> omega
  obtain ⟨-, hd⟩ | ⟨hn, hd⟩ | ⟨hn, -⟩ := decode_kinds b
  · rw [hd, Fp.encode, magBits_patternMag, hsign, BitVec.ofNat_toNat, BitVec.setWidth_eq]
  · rw [hd, Fp.encode, show 255 * 2 ^ 23 = 0x7F800000 by decide, ← hn, hsign, BitVec.ofNat_toNat, BitVec.setWidth_eq]
  · exact absurd hn hnum

/-- The number of a finite pattern counts its units (R83). -/
theorem f32Value_of_finite {b : F32} (h : b.toNat % 2 ^ 31 < 0x7F800000) :
    f32Value b = some ((signedMag (decide (2 ^ 31 ≤ b.toNat)) (patternMag (b.toNat % 2 ^ 31)) : ℚ) / 2 ^ 149) := by
  obtain ⟨hsign, he, hf⟩ := pattern_fields b
  have hsgn (m : Nat) : ((signedMag (decide (2 ^ 31 ≤ b.toNat)) m : Int) : ℚ) =
      (if decide (2 ^ 31 ≤ b.toNat) = true then -1 else 1) * m := by
    rw [signedMag]
    split <;> simp
  have he' : b.toNat % 2 ^ 31 / 2 ^ 23 = b.toNat / 2 ^ 23 % 256 := by omega
  have hf' : b.toNat % 2 ^ 31 % 2 ^ 23 = b.toNat % 2 ^ 23 := by omega
  simp only [f32Value, hsign, he, hf, hsgn, patternMag, he', hf']
  generalize (if decide (2 ^ 31 ≤ b.toNat) = true then (-1 : ℚ) else 1) = sgn
  rw [if_neg (by omega)]
  by_cases h0 : b.toNat / 2 ^ 23 % 256 = 0
  · rw [if_pos h0, if_pos (by omega), show b.toNat % 2 ^ 31 = b.toNat % 2 ^ 23 by omega]
    congr 1
    field_simp
  · rw [if_neg h0, if_neg (by omega)]
    obtain ⟨e, he1⟩ := Nat.exists_eq_succ_of_ne_zero h0
    have hexp : ((e.succ : Nat) : Int) - 127 = (e : Int) - 126 := by omega
    rw [he1, hexp, zpow_sub₀ two_ne_zero, zpow_natCast, Nat.succ_sub_one]
    push_cast
    congr 1
    field_simp
    ring

theorem f32Value_of_not_finite {b : F32} (h : 0x7F800000 ≤ b.toNat % 2 ^ 31) : f32Value b = none := by
  obtain ⟨-, he, -⟩ := pattern_fields b
  have hb := b.isLt
  simp only [f32Value, he]
  rw [if_pos (by omega)]

theorem fpValue_decode (b : F32) : fpValue (Fp.decode b) = f32Value b := by
  obtain ⟨h, hd⟩ | ⟨h, hd⟩ | ⟨h, hd⟩ := decode_kinds b <;> rw [hd]
  · rw [fpValue_fin, f32Value_of_finite h]
  · rw [f32Value_of_not_finite h.ge]
    rfl
  · rw [f32Value_of_not_finite h.le]
    rfl

theorem decode_fin_sign {b : F32} {neg : Bool} {mag : Nat} (h : Fp.decode b = .fin neg mag) : neg = b.getLsbD 31 := by
  rw [(pattern_fields b).1]
  obtain ⟨-, hd⟩ | ⟨-, hd⟩ | ⟨-, hd⟩ := decode_kinds b <;> rw [hd] at h <;> cases h
  rfl

/-- The fields that spell an infinity, and those that spell a NaN (R83). -/
theorem special_fields_iff (b : F32) :
    (b.extractLsb' 23 8 = 0xFF ∧ b.extractLsb' 0 23 = 0 ↔ b.toNat % 2 ^ 31 = 0x7F800000) ∧
    (b.extractLsb' 23 8 = 0xFF ∧ b.extractLsb' 0 23 ≠ 0 ↔ 0x7F800000 < b.toNat % 2 ^ 31) := by
  obtain ⟨-, he, hf⟩ := pattern_fields b
  have hexp : b.extractLsb' 23 8 = 0xFF ↔ b.toNat / 2 ^ 23 % 256 = 255 := he ▸ BitVec.toNat_inj.symm
  have hfrac : b.extractLsb' 0 23 = 0 ↔ b.toNat % 2 ^ 23 = 0 := hf ▸ BitVec.toNat_inj.symm
  rw [Ne, hexp, hfrac]
  omega

theorem decode_inf_iff (b : F32) (neg : Bool) : Fp.decode b = .inf neg ↔
    b.extractLsb' 23 8 = 0xFF ∧ b.extractLsb' 0 23 = 0 ∧ neg = b.getLsbD 31 := by
  rw [← and_assoc, (special_fields_iff b).1, (pattern_fields b).1]
  obtain ⟨h, hd⟩ | ⟨h, hd⟩ | ⟨h, hd⟩ := decode_kinds b <;> rw [hd] <;> generalize b.toNat % 2 ^ 31 = n at h
  · simp [h.ne]
  · simp [h, eq_comm]
  · simp [h.ne']

theorem isNaN_iff_fields (b : F32) : isNaN b = true ↔ b.extractLsb' 23 8 = 0xFF ∧ b.extractLsb' 0 23 ≠ 0 :=
  (isNaN_iff b).trans (special_fields_iff b).2.symm

/-- Settles O38. -/
theorem roundingIsNearest : Obligations.RoundingIsNearest := by
  refine ⟨fun num den hd => roundMag_isRounding num hd, fun a b va vb ha hb => ?_, ofInt_roundsTo, fun b => ?_⟩
  · obtain ⟨na, ma, rfl, rfl⟩ := fin_of_fpValue ha
    obtain ⟨nb, mb, rfl, rfl⟩ := fin_of_fpValue hb
    refine ⟨na, ma, nb, mb, rfl, rfl, mul_roundsTo na nb ma mb, fun h => div_roundsTo na nb ma ?_,
      add_roundsTo na nb ma mb rfl, sub_roundsTo na nb ma mb rfl⟩
    rintro rfl
    exact h (by cases nb <;> simp [signedMag])
  · exact ⟨fpValue_decode b, fun _ _ => decode_fin_sign, decode_inf_iff b, isNaN_iff_fields b, encode_decode⟩

end Sys2Proof.Machine
end

section
/-! The order of the binary32 numbers, and the operations of QUANTIZE and TO_PATTERN as monotone functions of it (42_pipeline.md
R182, R183, R193). A number's rank is its count of units, an infinity's the least magnitude that is not finite. -/

namespace Sys2Proof.Machine

/-! ### Ranks -/

/-- A number as a signed count of units; an infinity counts as the least magnitude that is not finite. -/
def Fp.rank : Fp → Int
  | .nan => 0
  | .inf n => signedMag n Fp.limit
  | .fin n m => signedMag n m

/-- An infinity, or a value whose magnitude is finite: what unpacking and rounding give. -/
def Fp.IsNumber : Fp → Prop
  | .nan => False
  | .inf _ => True
  | .fin _ m => m < Fp.limit

theorem limit_pos : 0 < Fp.limit := by decide +kernel

theorem signedMag_true (m : Nat) : signedMag true m = -(m : Int) := rfl

theorem signedMag_abs_le {n : Bool} {m b : Nat} (h : m ≤ b) : -(b : Int) ≤ signedMag n m ∧ signedMag n m ≤ b := by
  cases n <;> simp [signedMag] <;> omega

theorem Fp.IsNumber.rank_bounds {v : Fp} (h : v.IsNumber) : -(Fp.limit : Int) ≤ v.rank ∧ v.rank ≤ Fp.limit := by
  cases v with
  | nan => cases h
  | inf n => exact signedMag_abs_le le_rfl
  | fin n m => exact signedMag_abs_le (Nat.le_of_lt h)

/-- The comparison of numbers is the comparison of their ranks. -/
theorem lt_iff_rank_lt {a b : Fp} (ha : a.IsNumber) (hb : b.IsNumber) : Fp.lt a b = true ↔ a.rank < b.rank := by
  have hpos := limit_pos
  cases a with
  | nan => cases ha
  | inf na =>
    cases b with
    | nan => cases hb
    | inf nb => cases na <;> cases nb <;> simp [Fp.lt, Fp.rank, signedMag_true, hpos]
    | fin nb mb =>
      obtain ⟨hlo, hhi⟩ := signedMag_abs_le (n := nb) (Nat.le_sub_one_of_lt hb)
      cases na <;> simp [Fp.lt, Fp.rank, signedMag_true] <;> omega
  | fin na ma =>
    cases b with
    | nan => cases hb
    | inf nb =>
      obtain ⟨hlo, hhi⟩ := signedMag_abs_le (n := na) (Nat.le_sub_one_of_lt ha)
      cases nb <;> simp [Fp.lt, Fp.rank, signedMag_true] <;> omega
    | fin nb mb => simp [Fp.lt, Fp.rank]

/-! ### Patterns in order -/

theorem patternMag_mono : Monotone patternMag := by
  intro a b hab
  have hmod (n : Nat) := Nat.mod_lt n (Nat.two_pow_pos 23)
  simp only [patternMag]
  split_ifs with ha hb hb
  · exact hab
  · calc a ≤ 2 ^ 23 + b % 2 ^ 23 := by omega
      _ ≤ (2 ^ 23 + b % 2 ^ 23) * 2 ^ (b / 2 ^ 23 - 1) := Nat.le_mul_of_pos_right _ (Nat.two_pow_pos _)
  · omega
  · rcases (Nat.div_le_div_right hab : a / 2 ^ 23 ≤ b / 2 ^ 23).lt_or_eq with hlt | heq
    · calc (2 ^ 23 + a % 2 ^ 23) * 2 ^ (a / 2 ^ 23 - 1)
          ≤ 2 ^ 24 * 2 ^ (a / 2 ^ 23 - 1) := Nat.mul_le_mul_right _ (by have := hmod a; omega)
        _ = 2 ^ 23 * 2 ^ (a / 2 ^ 23 - 1 + 1) := by ring
        _ ≤ 2 ^ 23 * 2 ^ (b / 2 ^ 23 - 1) := Nat.mul_le_mul_left _ (Nat.pow_le_pow_right two_pos (by omega))
        _ ≤ (2 ^ 23 + b % 2 ^ 23) * 2 ^ (b / 2 ^ 23 - 1) := Nat.mul_le_mul_right _ (by omega)
    · rw [heq]
      exact Nat.mul_le_mul_right _ (by omega)

/-- Packing tells the magnitudes of different patterns apart. -/
theorem patternMag_strictMono : StrictMono patternMag :=
  patternMag_mono.strictMono_of_injective fun a b h => by rw [← magBits_patternMag a, h, magBits_patternMag]

theorem patternMag_inf : patternMag 0x7F800000 = Fp.limit := by decide +kernel

theorem not_nan_le {b : F32} (h : isNaN b = false) : b.toNat % 2 ^ 31 ≤ 0x7F800000 := by
  rw [← Nat.not_lt, ← isNaN_iff, h]
  decide

theorem decode_isNumber {b : F32} (h : isNaN b = false) : (Fp.decode b).IsNumber := by
  obtain ⟨hn, hd⟩ | ⟨-, hd⟩ | ⟨-, hd⟩ := decode_kinds b
  · rw [hd]
    have hmag := patternMag_strictMono hn
    rwa [patternMag_inf] at hmag
  · rw [hd]
    trivial
  · exact absurd hd (not_nan h)

theorem decode_rank {b : F32} (h : isNaN b = false) :
    (Fp.decode b).rank = signedMag (decide (2 ^ 31 ≤ b.toNat)) (patternMag (b.toNat % 2 ^ 31)) := by
  obtain ⟨-, hd⟩ | ⟨hn, hd⟩ | ⟨-, hd⟩ := decode_kinds b
  · rw [hd]
    rfl
  · rw [hd, hn, patternMag_inf]
    rfl
  · exact absurd hd (not_nan h)

/-- The patterns of the numbers from +0.0 on are in the order of the numbers. -/
theorem decode_rank_mono {a b : F32} (hab : a.toNat ≤ b.toNat) (hb : b.toNat ≤ 0x7F800000) :
    isNaN a = false ∧ isNaN b = false ∧ (Fp.decode a).rank ≤ (Fp.decode b).rank := by
  have hnum {c : F32} (hc : c.toNat ≤ 0x7F800000) : isNaN c = false := by
    rw [← Bool.not_eq_true, isNaN_iff]
    omega
  have hrank {c : F32} (hc : c.toNat ≤ 0x7F800000) : (Fp.decode c).rank = patternMag c.toNat := by
    rw [decode_rank (hnum hc), decide_eq_false (by omega), Nat.mod_eq_of_lt (by omega), signedMag_false]
  refine ⟨hnum (hab.trans hb), hnum hb, ?_⟩
  rw [hrank (hab.trans hb), hrank hb]
  exact_mod_cast patternMag_mono hab

/-- The patterns of the numbers from -0.0 down are in the opposite order. -/
theorem decode_rank_anti {a b : F32} (ha : 0x80000000 ≤ a.toNat) (hab : a.toNat ≤ b.toNat) (hb : b.toNat ≤ 0xFF800000) :
    isNaN a = false ∧ isNaN b = false ∧ (Fp.decode b).rank ≤ (Fp.decode a).rank := by
  have hnum {c : F32} (hc : 0x80000000 ≤ c.toNat) (hc' : c.toNat ≤ 0xFF800000) : isNaN c = false := by
    rw [← Bool.not_eq_true, isNaN_iff]
    omega
  have hrank {c : F32} (hc : 0x80000000 ≤ c.toNat) (hc' : c.toNat ≤ 0xFF800000) :
      (Fp.decode c).rank = -(patternMag (c.toNat - 2 ^ 31) : Int) := by
    have hmod : c.toNat % 2 ^ 31 = c.toNat - 2 ^ 31 := by omega
    rw [decode_rank (hnum hc hc'), decide_eq_true (by omega), hmod, signedMag_true]
  refine ⟨hnum ha (hab.trans hb), hnum (ha.trans hab) hb, ?_⟩
  rw [hrank ha (hab.trans hb), hrank (ha.trans hab) hb, neg_le_neg_iff]
  exact_mod_cast patternMag_mono (Nat.sub_le_sub_right hab _)

theorem decode_rank_le_of_not_lt {a b : F32} (ha : isNaN a = false) (hb : isNaN b = false)
    (h : Fp.lt (Fp.decode b) (Fp.decode a) = false) : (Fp.decode a).rank ≤ (Fp.decode b).rank := by
  rw [← Bool.not_eq_true, lt_iff_rank_lt (decode_isNumber hb) (decode_isNumber ha)] at h
  exact not_lt.1 h

/-! ### Rounding as a monotone function of the exact result -/

/-- The rank of `z / den` units rounded to binary32. -/
def roundInt (den : Nat) (z : Int) : Int := signedMag (decide (z < 0)) (min (roundMag z.natAbs den) Fp.limit)

theorem roundMag_zero (den : Nat) : roundMag 0 den = 0 := by
  simp [roundMag, roundHalfEven]

/-- A monotone function of magnitudes that keeps 0 is monotone with signs. -/
theorem signedMag_map_mono {f : Nat → Nat} (hf : Monotone f) (h0 : f 0 = 0) {na nb : Bool} {ma mb : Nat}
    (h : signedMag na ma ≤ signedMag nb mb) : signedMag na (f ma) ≤ signedMag nb (f mb) := by
  cases na <;> cases nb <;> simp only [signedMag_true, signedMag_false] at h ⊢
  · exact_mod_cast hf (by exact_mod_cast h)
  · obtain ⟨rfl, rfl⟩ : ma = 0 ∧ mb = 0 := by omega
    simp [h0]
  · omega
  · rw [neg_le_neg_iff] at h ⊢
    exact_mod_cast hf (by exact_mod_cast h)

theorem signedMag_natAbs (z : Int) : signedMag (decide (z < 0)) z.natAbs = z := by
  by_cases h : z < 0
  · rw [decide_eq_true h, signedMag_true]
    omega
  · rw [decide_eq_false h, signedMag_false]
    omega

theorem roundCapped_mono (den : Nat) : Monotone fun num => min (roundMag num den) Fp.limit :=
  fun _ _ h => min_le_min_right _ (roundMag_mono den h)

theorem roundCapped_zero (den : Nat) : min (roundMag 0 den) Fp.limit = 0 := by
  rw [roundMag_zero, Nat.zero_min]

/-- Rounding is monotone: magnitudes are, and both signs turn them alike. -/
theorem roundInt_mono (den : Nat) : Monotone (roundInt den) := fun a b hab => by
  refine signedMag_map_mono (roundCapped_mono den) (roundCapped_zero den) ?_
  rwa [signedMag_natAbs, signedMag_natAbs]

theorem round_rank (neg : Bool) (num den : Nat) : (Fp.round neg num den).rank = roundInt den (signedMag neg num) := by
  have hround : (Fp.round neg num den).rank = signedMag neg (min (roundMag num den) Fp.limit) := by
    rw [Fp.round]
    split
    case isTrue h => rw [min_eq_left (Nat.le_of_lt h)]; rfl
    case isFalse h => rw [min_eq_right (not_lt.1 h)]; rfl
  have hsame := signedMag_natAbs (signedMag neg num)
  refine hround.trans (le_antisymm ?_ ?_) <;>
    exact signedMag_map_mono (roundCapped_mono den) (roundCapped_zero den) (by rw [hsame])

theorem round_isNumber (neg : Bool) (num den : Nat) : (Fp.round neg num den).IsNumber := by
  rw [Fp.round]
  split
  case isTrue h => exact h
  case isFalse => trivial

/-- `op` keeps the infinities, and on finite values it is the function `g` of the rank. -/
structure Fp.ActsOnRank (op : Fp → Fp) (g : Int → Int) : Prop where
  inf : ∀ n, op (.inf n) = .inf n
  isNumber : ∀ n m, (op (.fin n m)).IsNumber
  rank : ∀ n m, (op (.fin n m)).rank = g (signedMag n m)

namespace Fp.ActsOnRank

variable {op : Fp → Fp} {g : Int → Int}

theorem number (h : Fp.ActsOnRank op g) {a : Fp} (ha : a.IsNumber) : (op a).IsNumber := by
  cases a with
  | nan => cases ha
  | inf n => rw [h.inf]; trivial
  | fin n m => exact h.isNumber n m

/-- Such an operation is monotone where `g` is: an infinity's rank bounds every number's. -/
theorem mono (h : Fp.ActsOnRank op g) (hg : Monotone g) {a b : Fp} (ha : a.IsNumber) (hb : b.IsNumber)
    (hab : a.rank ≤ b.rank) : (op a).rank ≤ (op b).rank := by
  obtain ⟨hlo, -⟩ := (h.number hb).rank_bounds
  obtain ⟨-, hhi⟩ := (h.number ha).rank_bounds
  cases a with
  | nan => cases ha
  | inf na =>
    cases na with
    | true => rw [h.inf]; exact hlo
    | false =>
      cases b with
      | nan => cases hb
      | inf nb => rwa [h.inf, h.inf]
      | fin nb mb =>
        have hmb := (signedMag_abs_le (n := nb) (Nat.le_sub_one_of_lt hb)).2
        have hpos := limit_pos
        simp only [Fp.rank, signedMag_false] at hab
        omega
  | fin na ma =>
    cases b with
    | nan => cases hb
    | inf nb =>
      cases nb with
      | false => rw [h.inf]; exact hhi
      | true =>
        have hma := (signedMag_abs_le (n := na) (Nat.le_sub_one_of_lt ha)).1
        have hpos := limit_pos
        simp only [Fp.rank, signedMag_true] at hab
        omega
    | fin nb mb =>
      rw [h.rank, h.rank]
      exact hg hab

end Fp.ActsOnRank

theorem signedMag_mul (n : Bool) (m c : Nat) : signedMag n (m * c) = signedMag n m * c := by
  cases n <;> simp [signedMag]

theorem div_actsOnRank {c : Nat} (hc : c ≠ 0) :
    Fp.ActsOnRank (Fp.div · (.fin false c)) (fun z => roundInt c (z * Fp.unit)) where
  inf n := by simp [Fp.div]
  isNumber n m := by
    simp only [Fp.div, if_neg hc]
    exact round_isNumber _ _ _
  rank n m := by simp only [Fp.div, if_neg hc, round_rank, Bool.xor_false, signedMag_mul]

theorem mul_actsOnRank {c : Nat} (hc : c ≠ 0) :
    Fp.ActsOnRank (Fp.mul · (.fin false c)) (fun z => roundInt Fp.unit (z * c)) where
  inf n := by simp [Fp.mul, hc]
  isNumber n m := round_isNumber _ _ _
  rank n m := by simp only [Fp.mul, round_rank, Bool.xor_false, signedMag_mul]

theorem roundInt_zero (den : Nat) : roundInt den 0 = 0 := by
  simp [roundInt, roundMag_zero]

theorem add_actsOnRank (neg : Bool) (c : Nat) :
    Fp.ActsOnRank (Fp.add · (.fin neg c)) (fun z => roundInt 1 (z + signedMag neg c)) where
  inf n := rfl
  isNumber n m := by
    simp only [Fp.add]
    split
    · exact limit_pos
    · exact round_isNumber _ _ _
  rank n m := by
    simp only [Fp.add]
    split
    case isTrue h =>
      rw [h, roundInt_zero]
      cases n <;> cases neg <;> rfl
    case isFalse => rw [round_rank, signedMag_natAbs]

theorem roundInt_scale_mono (den : Nat) (c : Nat) : Monotone fun z => roundInt den (z * c) :=
  fun _ _ h => roundInt_mono den (Int.mul_le_mul_of_nonneg_right h (Int.natCast_nonneg c))

theorem roundInt_shift_mono (den : Nat) (c : Int) : Monotone fun z => roundInt den (z + c) :=
  fun _ _ h => roundInt_mono den (Int.add_le_add_right h c)

/-- The clamp of D10 takes the greater of the value and the low end, then the lesser of that and the high end. -/
theorem clamp_rank {lo hi v : Fp} (hlo : lo.IsNumber) (hhi : hi.IsNumber) (hv : v.IsNumber) :
    (Fp.clamp lo hi v).IsNumber ∧ (Fp.clamp lo hi v).rank = min hi.rank (max lo.rank v.rank) := by
  have hfirst : (if Fp.lt v lo then lo else v).IsNumber ∧
      (if Fp.lt v lo then lo else v).rank = max lo.rank v.rank := by
    split
    case isTrue h => exact ⟨hlo, by rw [max_eq_left ((lt_iff_rank_lt hv hlo).1 h).le]⟩
    case isFalse h => exact ⟨hv, by rw [max_eq_right (not_lt.1 (mt (lt_iff_rank_lt hv hlo).2 h))]⟩
  obtain ⟨hnum, hrank⟩ := hfirst
  rw [← hrank, Fp.clamp]
  generalize (if Fp.lt v lo then lo else v) = v1 at *
  split
  case isTrue h => exact ⟨hhi, by rw [min_eq_left ((lt_iff_rank_lt hhi hnum).1 h).le]⟩
  case isFalse h => exact ⟨hnum, by rw [min_eq_right (not_lt.1 (mt (lt_iff_rank_lt hhi hnum).2 h))]⟩

end Sys2Proof.Machine
end

section
/-! Proofs about QUANTIZE and TO_PATTERN from the order of the numbers (42_pipeline.md R182 to R185, R193, R194): what one
evaluation gives at a pattern bounds the result on every number above or below it. -/

namespace Sys2Proof.Machine

/-! ### The part they share: clamp to 0.0..1.0, then times 255.0 -/

/-- The clamp to 0.0..1.0 and the product with 255.0. -/
def scale (v : Fp) : Fp := Fp.mul (Fp.clamp (Fp.ofInt 0) (Fp.ofInt 1) v) (Fp.ofInt 255)

/-- What `scale` is on ranks. -/
def scaleRank (r : Int) : Int := roundInt Fp.unit (min (Fp.unit : Int) (max 0 r) * (255 * Fp.unit : Nat))

theorem scaleRank_mono : Monotone scaleRank :=
  fun _ _ h => roundInt_scale_mono _ _ (min_le_min_left _ (max_le_max_left _ h))

theorem ne_nan_of_isNumber {v : Fp} (hv : v.IsNumber) : v ≠ .nan := by
  rintro rfl
  exact hv

theorem mul_255_eq_fin (neg : Bool) {m : Nat} (hm : m ≤ Fp.unit) : Fp.mul (.fin neg m) (.fin false (255 * Fp.unit)) =
    .fin (neg ^^ false) (roundMag (m * (255 * Fp.unit)) Fp.unit) := by
  refine round_eq_fin _ unit_pos ?_
  calc m * (255 * Fp.unit) ≤ Fp.unit * (512 * Fp.unit) := Nat.mul_le_mul hm (by omega)
    _ = 512 * Fp.unit * Fp.unit := mul_comm _ _

theorem scale_fin {v : Fp} (hv : v.IsNumber) :
    ∃ neg m, scale v = .fin neg m ∧ m ≤ 255 * Fp.unit ∧ signedMag neg m = scaleRank v.rank := by
  have hone : (Fp.fin false Fp.unit).IsNumber := by
    change Fp.unit < Fp.limit
    decide +kernel
  obtain ⟨-, hrank⟩ := clamp_rank (lo := .fin false 0) limit_pos hone hv
  obtain ⟨neg, m, hclamp, hm⟩ := clamp_zero_one_fin (ne_nan_of_isNumber hv)
  have hprod := mul_255_eq_fin neg hm
  rw [← ofInt_zero, ← ofInt_one, hclamp] at hrank
  refine ⟨_, _, by rw [scale, hclamp, ofInt_255, hprod], roundMag_mul_255_le hm, ?_⟩
  calc (Fp.fin (neg ^^ false) (roundMag (m * (255 * Fp.unit)) Fp.unit)).rank
      = roundInt Fp.unit (signedMag neg m * (255 * Fp.unit : Nat)) := by
        rw [← hprod, (mul_actsOnRank (by decide +kernel)).rank]
    _ = scaleRank v.rank := congrArg (fun r => roundInt Fp.unit (r * (255 * Fp.unit : Nat))) hrank

/-! ### QUANTIZE -/

theorem trunc_of_fin {v : Fp} {neg : Bool} {m : Nat} (h : v = .fin neg m) :
    Fp.trunc v = some (v.rank.tdiv Fp.unit) := by
  subst h
  cases neg <;> simp [Fp.trunc, Fp.rank, signedMag]

/-- The rank of `u - 128.0`, from the rank of `u`. -/
def offsetRank (r : Int) : Int := roundInt 1 (r + signedMag true (128 * Fp.unit))

theorem sub_128_rank (neg : Bool) (m : Nat) :
    (Fp.sub (.fin neg m) (Fp.ofInt 128)).rank = offsetRank (signedMag neg m) := by
  rw [ofInt_128]
  exact (add_actsOnRank true _).rank neg m

/-- The quotient of R181, before the clamp. -/
def turns (x : F32) : Fp := Fp.div (Fp.decode x) (Fp.decode twoPi)

/-- QUANTIZE32 up to the product is the quotient, scaled (R181). -/
theorem quantizeU_eq_scale (x : F32) : quantizeU x = scale (turns x) := rfl

theorem turns_eq (x : F32) : turns x = Fp.div (Fp.decode x) (.fin false (0xC90FDB * 2 ^ 128)) := by
  rw [turns, decode_twoPi]

theorem turns_isNumber {x : F32} (h : isNaN x = false) : (turns x).IsNumber := by
  rw [turns_eq]
  exact (div_actsOnRank (by decide +kernel)).number (decode_isNumber h)

theorem turns_rank_mono {a b : F32} (ha : isNaN a = false) (hb : isNaN b = false)
    (hab : (Fp.decode a).rank ≤ (Fp.decode b).rank) : (turns a).rank ≤ (turns b).rank := by
  rw [turns_eq, turns_eq]
  exact (div_actsOnRank (by decide +kernel)).mono (roundInt_scale_mono _ _) (decode_isNumber ha) (decode_isNumber hb) hab

theorem tdiv_unit_mono {a b : Int} (h : a ≤ b) : a.tdiv Fp.unit ≤ b.tdiv Fp.unit :=
  Int.tdiv_le_tdiv (Int.natCast_pos.2 unit_pos) h

/-- The code of QUANTIZE32 as a number (R181, R185). -/
def quantizeNumber (x : F32) : Int := quantizeClamp ((quantizeT x).rank.tdiv Fp.unit)

theorem quantize32_eq_number {x : F32} (h : isNaN x = false) : quantize32 x = some (toCode (quantizeNumber x)) := by
  obtain ⟨neg, m, ht⟩ := quantizeT_fin h
  rw [quantize32_eq, trunc_of_fin ht]
  rfl

theorem toInt_toCode_quantizeNumber (x : F32) : (toCode (quantizeNumber x)).toInt = quantizeNumber x := by
  have hrange : -128 ≤ quantizeNumber x ∧ quantizeNumber x ≤ 127 := by
    rw [quantizeNumber, quantizeClamp]
    split_ifs <;> omega
  exact toInt_toCode hrange.1 hrange.2

/-- QUANTIZE32 is monotone (R182), because each of its operations is. -/
theorem quantizeNumber_mono {a b : F32} (ha : isNaN a = false) (hb : isNaN b = false)
    (hab : (Fp.decode a).rank ≤ (Fp.decode b).rank) : quantizeNumber a ≤ quantizeNumber b := by
  have hT {x : F32} (hx : isNaN x = false) : (quantizeT x).rank = offsetRank (scaleRank (turns x).rank) := by
    obtain ⟨neg, m, hu, -, hrank⟩ := scale_fin (turns_isNumber hx)
    rw [← hrank, ← sub_128_rank, ← hu, ← quantizeU_eq_scale]
    rfl
  have hoffset : Monotone offsetRank := roundInt_shift_mono 1 _
  have hclamp : Monotone quantizeClamp := fun v w h => by
    simp only [quantizeClamp]
    split_ifs <;> omega
  rw [quantizeNumber, quantizeNumber, hT ha, hT hb]
  exact hclamp (tdiv_unit_mono (hoffset (scaleRank_mono (turns_rank_mono ha hb hab))))

/-- Settles O36. -/
theorem quantizeIsMonotone : Obligations.QuantizeIsMonotone := by
  intro a b ha hb h
  refine ⟨_, _, quantize32_eq_number ha, quantize32_eq_number hb, ?_⟩
  rw [toInt_toCode_quantizeNumber, toInt_toCode_quantizeNumber]
  exact quantizeNumber_mono ha hb (decode_rank_le_of_not_lt ha hb h)

theorem quantizeNumber_values : quantizeNumber 0xFF800000 = -128 ∧ quantizeNumber 0x80000000 = -128 ∧
    quantizeNumber 0x40C90FDA = 126 ∧ quantizeNumber 0x40C90FDB = 127 ∧ quantizeNumber 0x7F800000 = 127 := by
  decide +kernel

/-- Settles O35: the code is the same at both ends of each clamped range, and 126 just below 2π. -/
theorem quantizeClampsOutside : Obligations.QuantizeClampsOutside := by
  obtain ⟨hminf, hmzero, hbelow, htwoPi, hinf⟩ := quantizeNumber_values
  refine ⟨fun x hlo hhi => ?low, fun x hlo hhi => ?high, fun x hx => ?below⟩
  case low =>
    obtain ⟨-, hx, hle⟩ := decode_rank_anti (a := 0x80000000) (b := x) le_rfl hlo hhi
    obtain ⟨-, hinfty, hge⟩ := decode_rank_anti (a := x) (b := 0xFF800000) hlo hhi le_rfl
    have hcode : quantizeNumber x = -128 :=
      le_antisymm ((quantizeNumber_mono hx (by decide +kernel) hle).trans hmzero.le)
        (hminf.ge.trans (quantizeNumber_mono hinfty hx hge))
    rw [quantize32_eq_number hx, hcode]
    rfl
  case high =>
    obtain ⟨-, hx, hge⟩ := decode_rank_mono (a := 0x40C90FDB) (b := x) hlo hhi
    obtain ⟨-, hinfty, hle⟩ := decode_rank_mono (a := x) (b := 0x7F800000) hhi le_rfl
    have hcode : quantizeNumber x = 127 :=
      le_antisymm ((quantizeNumber_mono hx hinfty hle).trans hinf.le)
        (htwoPi.ge.trans (quantizeNumber_mono (by decide +kernel) hx hge))
    rw [quantize32_eq_number hx, hcode]
    rfl
  case below =>
    obtain ⟨hx, hmax, hle⟩ := decode_rank_mono (a := x) (b := 0x40C90FDA) (Nat.le_of_lt_succ hx) (by decide)
    refine ⟨_, quantize32_eq_number hx, ?_⟩
    rw [toInt_toCode_quantizeNumber]
    exact (quantizeNumber_mono hx hmax hle).trans hbelow.le

/-! ### QUANTIZE near zero (R184, C9) -/

theorem trunc_sub_128 {m : Nat} (hm : m ≤ 255 * Fp.unit) :
    Fp.trunc (Fp.sub (.fin false m) (Fp.ofInt 128)) = some ((offsetRank m).tdiv Fp.unit) := by
  have hfin : ∃ neg n, Fp.sub (.fin false m) (Fp.ofInt 128) = .fin neg n := by
    rw [ofInt_128]
    exact add_fin_eq_fin false true (hm.trans (by omega)) (by omega)
  obtain ⟨neg, n, hfin⟩ := hfin
  rw [trunc_of_fin hfin, sub_128_rank, signedMag_false]

theorem offsetRank_values : (offsetRank 0).tdiv Fp.unit = -128 ∧ (offsetRank (2 ^ 131 : Nat)).tdiv Fp.unit = -128 ∧
    (offsetRank (2 ^ 131 + 1 : Nat)).tdiv Fp.unit = -127 ∧ (offsetRank (2 ^ 149 + 2 ^ 131 : Nat)).tdiv Fp.unit = -127 := by
  decide +kernel

theorem tdiv_offsetRank_mono {m n : Nat} (h : m ≤ n) :
    (offsetRank m).tdiv Fp.unit ≤ (offsetRank n).tdiv Fp.unit :=
  tdiv_unit_mono (roundInt_shift_mono 1 _ (Int.ofNat_le.2 h))

/-- Up to 2^-18 the difference rounds to -128.0. -/
theorem trunc_sub_128_tiny {m : Nat} (hm : m ≤ 2 ^ 131) :
    Fp.trunc (Fp.sub (.fin false m) (Fp.ofInt 128)) = some (-128) := by
  obtain ⟨hzero, htop, -, -⟩ := offsetRank_values
  have hlarge : 2 ^ 131 ≤ 255 * Fp.unit := by decide +kernel
  rw [trunc_sub_128 (hm.trans hlarge)]
  exact congrArg some (le_antisymm ((tdiv_offsetRank_mono hm).trans htop.le)
    (hzero.ge.trans (tdiv_offsetRank_mono m.zero_le)))

/-- From there to 1.0 it stays above -128.0 and truncates to -127; so it does to 1 + 2^-18, whose difference is a tie that goes
to the even -127.0. -/
theorem trunc_sub_128_small {m : Nat} (hlo : 2 ^ 131 < m) (hhi : m ≤ 2 ^ 149 + 2 ^ 131) :
    Fp.trunc (Fp.sub (.fin false m) (Fp.ofInt 128)) = some (-127) := by
  obtain ⟨-, -, hbottom, htop⟩ := offsetRank_values
  have hlarge : 2 ^ 149 + 2 ^ 131 ≤ 255 * Fp.unit := by decide +kernel
  rw [trunc_sub_128 (hhi.trans hlarge)]
  exact congrArg some (le_antisymm ((tdiv_offsetRank_mono hhi).trans htop.le)
    (hbottom.ge.trans (tdiv_offsetRank_mono hlo)))

theorem quantize32_of_quantizeU {x : F32} {m : Nat} {z : Int} (hu : quantizeU x = .fin false m)
    (hz : Fp.trunc (Fp.sub (.fin false m) (Fp.ofInt 128)) = some z) :
    quantize32 x = some (toCode (quantizeClamp z)) := by
  rw [quantize32_eq, quantizeT, hu, hz]
  rfl

/-! ### The product `u` from 0 to 2π -/

/-- The units of the block's 2π. -/
def twoPiMag : Nat := 0xC90FDB * 2 ^ 128

/-- The rounded quotient of `m` units and 2π. -/
def turnsMag (m : Nat) : Nat := roundMag (m * Fp.unit) twoPiMag

/-- The rounded product of 255.0 and that quotient. -/
def productMag (m : Nat) : Nat := roundMag (turnsMag m * (255 * Fp.unit)) Fp.unit

theorem twoPiMag_pos : 0 < twoPiMag := by decide +kernel

theorem turnsMag_mono : Monotone turnsMag := fun _ _ h => roundMag_mono _ (Nat.mul_le_mul_right _ h)

theorem productMag_mono : Monotone productMag := fun _ _ h => roundMag_mono _ (Nat.mul_le_mul_right _ (turnsMag_mono h))

theorem turnsMag_le {m : Nat} (h : m ≤ twoPiMag) : turnsMag m ≤ Fp.unit := by
  have hexact : turnsMag twoPiMag = Fp.unit := by decide +kernel
  exact hexact ▸ turnsMag_mono h

theorem patternMag_le_twoPiMag {n : Nat} (h : n ≤ 0x40C90FDB) : patternMag n ≤ twoPiMag := by
  have hexact : patternMag 0x40C90FDB = twoPiMag := by decide +kernel
  exact hexact ▸ patternMag_mono h

theorem clamp_zero_one_eq {m : Nat} (h : m ≤ Fp.unit) :
    Fp.clamp (Fp.ofInt 0) (Fp.ofInt 1) (.fin false m) = .fin false m := by
  have hlo : ¬(m : Int) < 0 := by omega
  have hhi : ¬(Fp.unit : Int) < m := by omega
  rw [ofInt_zero, ofInt_one]
  generalize Fp.unit = u at *
  simp [Fp.clamp, Fp.lt, hlo, hhi]

/-- From +0.0 to 2π no operation of QUANTIZE32 before the difference clamps or overflows. -/
theorem quantizeU_eq {x : F32} (hx : x.toNat ≤ 0x40C90FDB) :
    quantizeU x = .fin false (productMag (patternMag x.toNat)) := by
  have hmag := patternMag_le_twoPiMag hx
  have hdecode : Fp.decode x = .fin false (patternMag x.toNat) := by
    obtain ⟨-, hd⟩ | ⟨hn, -⟩ | ⟨hn, -⟩ := decode_kinds x
    · rw [hd, decide_eq_false (by omega), Nat.mod_eq_of_lt (by omega)]
    · omega
    · omega
  have hdiv : Fp.div (.fin false (patternMag x.toNat)) (.fin false twoPiMag) =
      .fin false (turnsMag (patternMag x.toNat)) := by
    rw [Fp.div, if_neg twoPiMag_pos.ne']
    refine round_eq_fin _ twoPiMag_pos ?_
    calc patternMag x.toNat * Fp.unit ≤ twoPiMag * (512 * Fp.unit) := Nat.mul_le_mul hmag (by omega)
      _ = 512 * Fp.unit * twoPiMag := mul_comm _ _
  have hle := turnsMag_le hmag
  have hclamp : Fp.clamp (Fp.ofInt 0) (Fp.ofInt 1) (.fin false (turnsMag (patternMag x.toNat))) =
      .fin false (turnsMag (patternMag x.toNat)) := clamp_zero_one_eq hle
  rw [quantizeU, decode_twoPi, hdecode, ← twoPiMag, hdiv, hclamp, ofInt_255, mul_255_eq_fin false hle]
  rfl

theorem productMag_values : productMag (patternMag 0x33C9D9B6) = 2 ^ 131 ∧
    2 ^ 131 < productMag (patternMag 0x33C9D9B7) ∧ productMag (patternMag 0x3CC9D9E8) = 2 ^ 149 + 2 ^ 131 := by decide +kernel

/-- Settles O37: the three patterns named are the ends of the two ranges. -/
theorem quantizeTinyInputs : Obligations.QuantizeTinyInputs := by
  obtain ⟨htiny, hsmall, htop⟩ := productMag_values
  refine ⟨fun m => trunc_sub_128_tiny, fun m hlo hhi => trunc_sub_128_small hlo (by omega),
    fun x m hu hm => quantize32_of_quantizeU hu (trunc_sub_128_tiny hm),
    fun x m hu hlo hhi => quantize32_of_quantizeU hu (trunc_sub_128_small hlo (by omega)), fun x hx => ?tiny,
    fun x hlo hhi => ?small⟩
  case tiny =>
    have hu := quantizeU_eq (x := x) (by omega)
    have hm : productMag (patternMag x.toNat) ≤ 2 ^ 131 := htiny ▸ productMag_mono (patternMag_mono hx)
    exact ⟨⟨_, hu, hm⟩, quantize32_of_quantizeU hu (trunc_sub_128_tiny hm)⟩
  case small =>
    have hu := quantizeU_eq (x := x) (by omega)
    have hm : 2 ^ 131 < productMag (patternMag x.toNat) :=
      hsmall.trans_le (productMag_mono (patternMag_mono hlo))
    have hm' : productMag (patternMag x.toNat) ≤ 2 ^ 149 + 2 ^ 131 := htop ▸ productMag_mono (patternMag_mono hhi)
    exact ⟨⟨_, hu, hm⟩, quantize32_of_quantizeU hu (trunc_sub_128_small hm hm')⟩

/-! ### TO_PATTERN -/

/-- `(y + 1.0) / 2.0`, before the clamp (R193). -/
def halfShifted (y : F32) : Fp := Fp.div (Fp.add (Fp.decode y) (Fp.ofInt 1)) (Fp.ofInt 2)

theorem halfShifted_number_and_mono : (∀ y, isNaN y = false → (halfShifted y).IsNumber) ∧
    ∀ a b, isNaN a = false → isNaN b = false → (Fp.decode a).rank ≤ (Fp.decode b).rank →
      (halfShifted a).rank ≤ (halfShifted b).rank := by
  have hadd := add_actsOnRank false Fp.unit
  have hdiv := div_actsOnRank (c := 2 * Fp.unit) (by decide +kernel)
  simp only [halfShifted, ofInt_one, ofInt_two]
  exact ⟨fun y hy => hdiv.number (hadd.number (decode_isNumber hy)), fun a b ha hb hab =>
    hdiv.mono (roundInt_scale_mono _ _) (hadd.number (decode_isNumber ha)) (hadd.number (decode_isNumber hb))
      (hadd.mono (roundInt_shift_mono _ _) (decode_isNumber ha) (decode_isNumber hb) hab)⟩

/-- The pattern as a number (R194). -/
def patternNumber (y : F32) : Int := (2 * (scale (halfShifted y)).rank + Fp.unit) / (2 * Fp.unit)

theorem toPattern_eq_number {y : F32} (h : isNaN y = false) :
    toPattern y = some (BitVec.ofInt 8 (patternNumber y)) := by
  obtain ⟨neg, m, hfin, -⟩ := scale_fin (halfShifted_number_and_mono.1 y h)
  have hround : Fp.roundNearest (scale (halfShifted y)) = some (patternNumber y) := by
    rw [patternNumber, hfin]
    rfl
  rw [toPattern, onPattern_eq]
  exact congrArg (Option.map _) hround

theorem patternNumber_mono {a b : F32} (ha : isNaN a = false) (hb : isNaN b = false)
    (hab : (Fp.decode a).rank ≤ (Fp.decode b).rank) : patternNumber a ≤ patternNumber b := by
  obtain ⟨hnum, hmono⟩ := halfShifted_number_and_mono
  have hrank {y : F32} (hy : isNaN y = false) : (scale (halfShifted y)).rank = scaleRank (halfShifted y).rank := by
    obtain ⟨neg, m, hfin, -, hrank⟩ := scale_fin (hnum y hy)
    rw [hfin, ← hrank]
    rfl
  have hle := scaleRank_mono (hmono a b ha hb hab)
  rw [patternNumber, patternNumber, hrank ha, hrank hb]
  exact Int.ediv_le_ediv (by have := unit_pos; omega) (by omega)

theorem patternNumber_values : patternNumber 0xFF800000 = 0 ∧ patternNumber 0xBF800000 = 0 ∧
    patternNumber 0x3F800000 = 255 ∧ patternNumber 0x7F800000 = 255 := by decide +kernel

/-- Every number lies between the infinities. -/
theorem patternNumber_range {y : F32} (h : isNaN y = false) : 0 ≤ patternNumber y ∧ patternNumber y ≤ 255 := by
  obtain ⟨hlo, -, -, hhi⟩ := patternNumber_values
  obtain ⟨hge, hle⟩ := (decode_isNumber h).rank_bounds
  have hminf : (Fp.decode 0xFF800000).rank = -(Fp.limit : Int) := by decide +kernel
  have hinf : (Fp.decode 0x7F800000).rank = Fp.limit := by decide +kernel
  rw [← hminf] at hge
  rw [← hinf] at hle
  exact ⟨hlo.ge.trans (patternNumber_mono (by decide +kernel) h hge),
    (patternNumber_mono h (by decide +kernel) hle).trans hhi.le⟩

theorem exec_toPattern_of_some {y : F32} {p : Byte} (h : toPattern y = some p) (s : State) :
    exec (.toPattern y) s = .next { s with reply := some (.pattern p) } := by
  rw [exec, execToPattern, h]
  rfl

theorem toNat_ofInt_byte {v : Int} (h : 0 ≤ v ∧ v ≤ 255) : (BitVec.ofInt 8 v).toNat = v.toNat := by
  rw [BitVec.toNat_ofInt]
  omega

/-- Settles O48. -/
theorem toPatternClampsAndIsMonotone : Obligations.ToPatternClampsAndIsMonotone := by
  obtain ⟨-, hmone, hone, -⟩ := patternNumber_values
  refine ⟨fun y s hlo hhi => ?low, fun y s hlo hhi => ?high, fun a b ha hb h => ?mono⟩
  case low =>
    obtain ⟨hend, hy, hle⟩ := decode_rank_anti (a := 0xBF800000) (b := y) (by decide) hlo hhi
    have hval : patternNumber y = 0 :=
      le_antisymm ((patternNumber_mono hy hend hle).trans hmone.le) (patternNumber_range hy).1
    exact exec_toPattern_of_some (by rw [toPattern_eq_number hy, hval]; rfl) s
  case high =>
    obtain ⟨hend, hy, hge⟩ := decode_rank_mono (a := 0x3F800000) (b := y) hlo hhi
    have hval : patternNumber y = 255 :=
      le_antisymm (patternNumber_range hy).2 (hone.ge.trans (patternNumber_mono hend hy hge))
    exact exec_toPattern_of_some (by rw [toPattern_eq_number hy, hval]; rfl) s
  case mono =>
    refine ⟨_, _, ?_, exec_toPattern_of_some (toPattern_eq_number ha), exec_toPattern_of_some (toPattern_eq_number hb)⟩
    rw [toNat_ofInt_byte (patternNumber_range ha), toNat_ofInt_byte (patternNumber_range hb)]
    exact Int.toNat_le_toNat (patternNumber_mono ha hb (decode_rank_le_of_not_lt ha hb h))

end Sys2Proof.Machine
end

section
/-! Proofs about the bins of QUANTIZE (42_pipeline.md R180, R185): the three roundings of QUANTIZE32 move the difference by less
than `quantizeError`, so away from the bin edges they do not change its truncation. -/

namespace Sys2Proof.Machine

open Reference

/-! ### `trunc` on the rationals -/

theorem truncQ_neg (v : ℚ) : truncQ (-v) = -truncQ v := by
  rcases lt_trichotomy v 0 with h | rfl | h
  · rw [truncQ, truncQ, if_pos (by linarith), if_neg (by linarith), Int.floor_neg]
  · simp [truncQ]
  · rw [truncQ, truncQ, if_neg (by linarith), if_pos h.le, Int.ceil_neg]

theorem truncQ_of_nonneg {v : ℚ} (h : 0 ≤ v) : truncQ v = ⌊v⌋ := if_pos h

/-- Division toward zero is truncation of the quotient. -/
theorem truncQ_intCast_div (a : Int) (b : Nat) : truncQ ((a : ℚ) / b) = a.tdiv b := by
  have hnonneg {c : Int} (hc : 0 ≤ c) : truncQ ((c : ℚ) / b) = c.tdiv b := by
    rw [truncQ_of_nonneg (div_nonneg (by exact_mod_cast hc) (Nat.cast_nonneg b)), Rat.floor_intCast_div_natCast,
      Int.tdiv_eq_ediv_of_nonneg hc]
  rcases le_total 0 a with h | h
  · exact hnonneg h
  · obtain ⟨c, rfl⟩ : ∃ c, a = -c := ⟨-a, (neg_neg a).symm⟩
    rw [Int.cast_neg, neg_div, truncQ_neg, hnonneg (neg_nonpos.1 h), Int.neg_tdiv]

/-- A value below 1 in magnitude truncates to 0. -/
theorem truncQ_eq_zero {v : ℚ} (hlo : -1 < v) (hhi : v < 1) : truncQ v = 0 := by
  rw [truncQ]
  split
  case isTrue h => exact Int.floor_eq_zero_iff.2 ⟨h, hhi⟩
  case isFalse h => exact Int.ceil_eq_zero_iff.2 ⟨hlo, (not_le.1 h).le⟩

/-- Further than `δ` from every edge a move by at most `δ` keeps the truncation. -/
theorem truncQ_eq_of_near {t e δ : ℚ} (hnear : |t - e| ≤ δ) (hedge : ∀ k : Int, k ≠ 0 → δ < |e - k|) :
    truncQ t = truncQ e := by
  wlog hpos : 0 ≤ e generalizing t e
  · have hneg := this (t := -t) (e := -e) (by rwa [neg_sub_neg, abs_sub_comm]) (fun k hk => ?_) (by linarith)
    · rw [truncQ_neg, truncQ_neg] at hneg
      exact neg_injective hneg
    · have := hedge (-k) (neg_ne_zero.2 hk)
      rwa [Int.cast_neg, sub_neg_eq_add, ← abs_neg, neg_add, ← sub_eq_add_neg] at this
  obtain ⟨hlo, hhi⟩ := abs_le.1 hnear
  have habove {k : Int} (hk : k ≠ 0) (h : (k : ℚ) ≤ e) : (k : ℚ) < t := by
    have := hedge k hk
    rw [abs_of_nonneg (by linarith)] at this
    linarith
  have hbelow {k : Int} (hk : k ≠ 0) (h : e ≤ k) : t < k := by
    have := hedge k hk
    rw [abs_of_nonpos (by linarith)] at this
    linarith
  have hfloor := Int.floor_le e
  have hceil := Int.lt_floor_add_one e
  have hnext : t < (⌊e⌋ + 1 : Int) := hbelow (by have := Int.floor_nonneg.2 hpos; omega) (by exact_mod_cast hceil.le)
  rw [truncQ_of_nonneg hpos]
  rcases (Int.floor_nonneg.2 hpos).eq_or_lt with h0 | h1
  · rw [← h0] at hnext ⊢
    refine truncQ_eq_zero ?_ (by simpa using hnext)
    simpa using habove (k := -1) (by decide) (by push_cast; linarith)
  · have hge := habove h1.ne' hfloor
    have hfl : (0 : ℚ) ≤ ⌊e⌋ := by exact_mod_cast h1.le
    rw [truncQ_of_nonneg (hfl.trans hge.le)]
    exact Int.floor_eq_iff.2 ⟨hge.le, by exact_mod_cast hnext⟩

/-! ### The three roundings -/

theorem twoPiValue_eq : twoPiValue = (twoPiMag : ℚ) / 2 ^ 149 := by
  rw [twoPiValue, twoPiMag]
  norm_num

/-- The quotient, in 0.0 to 1.0, moves by at most 2^-25. -/
theorem turnsMag_error {m : Nat} (h : m ≤ twoPiMag) : |(m : ℚ) / twoPiMag * 2 ^ 149 - turnsMag m| ≤ 2 ^ 124 := by
  have herr := roundMag_error (num := m * Fp.unit) (j := 125) twoPiMag_pos ?_
  · have hval : ((m * Fp.unit : Nat) : ℚ) / twoPiMag = (m : ℚ) / twoPiMag * 2 ^ 149 := by
      rw [Nat.cast_mul, cast_unit, mul_div_right_comm]
    rw [hval] at herr
    exact herr.trans_eq (by norm_num)
  · rw [mul_comm]
    exact Nat.mul_le_mul_left _ h

theorem productMag_le {m : Nat} (h : m ≤ twoPiMag) : productMag m ≤ 255 * Fp.unit :=
  roundMag_mul_255_le (turnsMag_le h)

/-- The product, below 256.0, moves by at most 2^-17. -/
theorem productMag_error {m : Nat} (h : m ≤ twoPiMag) : |(turnsMag m : ℚ) * 255 - productMag m| ≤ 2 ^ 132 := by
  have hturns := turnsMag_le h
  have herr := roundMag_error (num := turnsMag m * (255 * Fp.unit)) (j := 133) unit_pos ?_
  · have hval : ((turnsMag m * (255 * Fp.unit) : Nat) : ℚ) / Fp.unit = turnsMag m * 255 := by
      have hunit : (Fp.unit : ℚ) ≠ 0 := by exact_mod_cast unit_pos.ne'
      push_cast
      field_simp
    rw [hval] at herr
    exact herr.trans_eq (by norm_num)
  · have hbig : 255 * Fp.unit ≤ 2 ^ (24 + 133) := by decide +kernel
    rw [mul_comm]
    exact Nat.mul_le_mul hbig hturns

theorem abs_signedMag_sub (n : Bool) (a b : Nat) : |(signedMag n a : ℚ) - signedMag n b| = |(a : ℚ) - b| := by
  cases n with
  | false => rfl
  | true =>
    rw [signedMag_true, signedMag_true, Int.cast_neg, Int.cast_neg, neg_sub_neg, abs_sub_comm]
    rfl

theorem roundInt_error {z : Int} (h : z.natAbs ≤ 2 ^ 156) : |(z : ℚ) - roundInt 1 z| ≤ 2 ^ 131 := by
  have hcap : roundMag z.natAbs 1 ≤ Fp.limit := by
    have hexact : roundMag (2 ^ 156) 1 ≤ Fp.limit := by decide +kernel
    exact (roundMag_mono 1 h).trans hexact
  have herr := roundMag_error (num := z.natAbs) (den := 1) (j := 132) one_pos (by rwa [mul_one])
  rw [Nat.cast_one, div_one] at herr
  have hz := signedMag_natAbs z
  calc |(z : ℚ) - roundInt 1 z|
      = |(signedMag (decide (z < 0)) z.natAbs : ℚ) - signedMag (decide (z < 0)) (roundMag z.natAbs 1)| := by
        rw [hz, roundInt, min_eq_left hcap]
    _ ≤ 2 ^ 132 / 2 := by rwa [abs_signedMag_sub]
    _ = 2 ^ 131 := by norm_num

/-- The difference, at most 128.0 in magnitude, moves by at most 2^-18. -/
theorem offsetRank_error {m : Nat} (h : m ≤ 255 * Fp.unit) :
    |((m : ℚ) - 128 * 2 ^ 149) - offsetRank m| ≤ 2 ^ 131 := by
  have hval : ((m + signedMag true (128 * Fp.unit) : Int) : ℚ) = m - 128 * 2 ^ 149 := by
    rw [signedMag_true]
    push_cast
    rw [cast_unit]
    ring
  have hbound : (m + signedMag true (128 * Fp.unit) : Int).natAbs ≤ 2 ^ 156 := by
    have hunit : 2 ^ 156 = 128 * Fp.unit := by decide +kernel
    rw [signedMag_true, hunit]
    omega
  exact hval ▸ roundInt_error hbound

/-- The rounded difference, and the exact one it stands for. -/
theorem quantize_error {m : Nat} (h : m ≤ twoPiMag) :
    |(offsetRank (productMag m) : ℚ) / Fp.unit - ((m : ℚ) / twoPiMag * 255 - 128)| ≤ quantizeError := by
  have hturns := turnsMag_error h
  have hprod := productMag_error h
  have hdiff := offsetRank_error (m := productMag m) (productMag_le h)
  have hpos : (0 : ℚ) < 2 ^ 149 := by positivity
  have hunits : (offsetRank (productMag m) : ℚ) / 2 ^ 149 - ((m : ℚ) / twoPiMag * 255 - 128) =
      (offsetRank (productMag m) - ((m : ℚ) / twoPiMag * 2 ^ 149 * 255 - 128 * 2 ^ 149)) / 2 ^ 149 := by
    field_simp
  rw [cast_unit, quantizeError, hunits, abs_div, abs_of_pos hpos, div_le_iff₀ hpos, abs_le]
  obtain ⟨hturnsLo, hturnsHi⟩ := abs_le.1 hturns
  obtain ⟨hprodLo, hprodHi⟩ := abs_le.1 hprod
  obtain ⟨hdiffLo, hdiffHi⟩ := abs_le.1 hdiff
  constructor <;> linarith

theorem quantizeClamp_tdiv_offsetRank {m : Nat} (h : m ≤ 255 * Fp.unit) :
    quantizeClamp ((offsetRank m).tdiv Fp.unit) = (offsetRank m).tdiv Fp.unit ∧
      -128 ≤ (offsetRank m).tdiv Fp.unit ∧ (offsetRank m).tdiv Fp.unit ≤ 127 := by
  have hends : (offsetRank 0).tdiv Fp.unit = -128 ∧ (offsetRank (255 * Fp.unit : Nat)).tdiv Fp.unit = 127 := by
    decide +kernel
  have hlo := hends.1.ge.trans (tdiv_offsetRank_mono m.zero_le)
  have hhi := (tdiv_offsetRank_mono h).trans hends.2.le
  refine ⟨?_, hlo, hhi⟩
  rw [quantizeClamp, if_neg (by omega), if_neg (by omega)]

/-- From 0 to 2π the code truncates the exact value wherever that is not near a bin edge (R185). -/
theorem quantize32_eq_truncQ {x : F32} (hx : x.toNat ≤ 0x40C90FDB)
    (hedge : ∀ k : Int, k ≠ 0 → quantizeError < |(patternMag x.toNat : ℚ) / twoPiMag * 255 - 128 - k|) :
    ∃ q : Code, quantize32 x = some q ∧ q.toInt = truncQ ((patternMag x.toNat : ℚ) / twoPiMag * 255 - 128) := by
  have hmag := patternMag_le_twoPiMag hx
  have hprod := productMag_le hmag
  obtain ⟨hclamp, hlo, hhi⟩ := quantizeClamp_tdiv_offsetRank hprod
  refine ⟨_, quantize32_of_quantizeU (quantizeU_eq hx) (trunc_sub_128 hprod), ?_⟩
  rw [hclamp, toInt_toCode hlo hhi, ← truncQ_intCast_div]
  exact truncQ_eq_of_near (quantize_error hmag) hedge

theorem exec_quantize_of_some {x : F32} {q : Code} (h : quantize32 x = some q) (s : State) :
    exec (.quantize x) s = .next { s with reply := some (.code q) } := by
  rw [exec, execQuantize, quantize_some s h]
  rfl

/-- Settles O33. -/
theorem quantizeAnswersOnNumbers : Obligations.QuantizeAnswersOnNumbers := by
  refine ⟨fun x hx => ?answers, by decide +kernel, fun x v hx hv hedge => ?bins⟩
  case answers =>
    obtain ⟨q, hq⟩ := quantize32_of_not_nan hx
    exact ⟨q, hq, exec_quantize_of_some hq⟩
  case bins =>
    have hval : v / twoPiValue * 255 = (patternMag x.toNat : ℚ) / twoPiMag * 255 := by
      rw [f32Value_of_finite (by omega), decide_eq_false (by omega), Nat.mod_eq_of_lt (by omega), signedMag_false] at hv
      rw [← Option.some.inj hv, twoPiValue_eq, div_div_div_cancel_right₀ (by positivity), Int.cast_natCast]
    rw [hval] at hedge ⊢
    refine quantize32_eq_truncQ (by omega) fun k hk => ?_
    have := hedge (k + 128) (by omega)
    rwa [Int.cast_add, Int.cast_ofNat, ← sub_sub, sub_right_comm] at this

end Sys2Proof.Machine
end

section
/-! More proofs about the pipeline (42_pipeline.md): what a NaN leaves to a draw (R184, R194), DEQUANTIZE (R187, R188), and RUN
(R189 to R192). -/

namespace Sys2Proof.Machine

open Reference

/-! ### QUANTIZE and TO_PATTERN of one pattern -/

theorem quantize32_boundary : quantize32 0x00000000 = some (BitVec.ofInt 8 (-128)) ∧ quantize32 0x40C90FDB = some 127 := by
  decide +kernel

/-- Settles O32. -/
theorem quantizeBoundaryContract : Obligations.QuantizeBoundaryContract := fun s =>
  ⟨⟨_, exec_quantize_of_some quantize32_boundary.1 s, by decide⟩,
    ⟨_, exec_quantize_of_some quantize32_boundary.2 s, by decide⟩⟩

/-- A NaN passes through every operation of QUANTIZE32, and has no truncation. -/
theorem quantize32_of_nan {x : F32} (h : isNaN x = true) : quantize32 x = none := by
  rw [quantize32_eq, quantizeT, quantizeU, decode_nan h, ofInt_zero, ofInt_one, decode_twoPi, ofInt_255, ofInt_128]
  rfl

/-- Settles O34. -/
theorem quantizeNaNIsADraw : Obligations.QuantizeNaNIsADraw := by
  intro x s h
  rw [exec, execQuantize, quantize_none s (quantize32_of_nan h)]
  rfl

theorem toPattern_of_nan {y : F32} (h : isNaN y = true) : toPattern y = none := by
  rw [toPattern, onPattern_eq, decode_nan h]
  simp only [ofInt_zero, ofInt_one, ofInt_two, ofInt_255]
  rfl

/-- Settles O49. -/
theorem toPatternNaNIsADraw : Obligations.ToPatternNaNIsADraw := by
  intro y s h
  rw [exec, execToPattern, toPattern_of_nan h]
  rfl

/-! ### DEQUANTIZE -/

/-- Each of the 256 codes gives a pattern of exactly its value over 128, with +0.0 for 0 (R187, R188). -/
theorem dequantize_value : ∀ c : Code, f32Value (dequantize c) = some ((c.toInt : ℚ) / 128) ∧
    dequantize c ≠ 0x80000000 ∧ dequantize c ≠ 0x3F800000 := by
  decide +kernel

/-- Settles O39. -/
theorem dequantizeIsExact : Obligations.DequantizeIsExact := fun c _ => ⟨rfl, dequantize_value c⟩

theorem toPattern_dequantize : ∀ c : Code,
    toPattern (dequantize c) = some (BitVec.ofInt 8 (((c.toInt + 128) * 255 + 128) / 256)) := by
  decide +kernel

/-- Settles O47. -/
theorem toPatternOfPipelineOutputs : Obligations.ToPatternOfPipelineOutputs :=
  fun c s => exec_toPattern_of_some (toPattern_dequantize c) s

/-! ### RUN -/

/-- Settles O40. -/
theorem runNotReadyGivesZero : Obligations.RunNotReadyGivesZero := fun _ h => exec_run_of_not_ready h

/-- In Ready, with the views inside the blob, RUN puts in Y the pattern of the network of the code X gives (R189). -/
theorem run_computes {s : State} (hs : s.state = .ready) (h : ∀ r, s.ViewReady r) :
    ∃ y, f32Value y = some ((network s (quantize s.x s).1.toInt : ℚ) / 128) ∧ y ≠ 0x80000000 ∧
      exec .run s = .next ((quantize s.x s).2.setY y) := by
  obtain ⟨c, hc, hval⟩ := forward_computes (quantize s.x s).1 h
  obtain ⟨hy, hzero, -⟩ := dequantize_value c
  exact ⟨_, by rw [hy, hval], hzero, exec_run_of_forward hs hc⟩

/-- Settles O41. -/
theorem runComputesPipeline : Obligations.RunComputesPipeline := by
  intro s hs h hx
  obtain ⟨q, hq⟩ := quantize32_of_not_nan hx
  obtain ⟨y, hy, hzero, hrun⟩ := run_computes hs h
  rw [quantize_some s hq] at hy hrun
  exact ⟨q, y, hq, hy, hzero, hrun⟩

/-- Settles O42. -/
theorem runOnNaNUsesADraw : Obligations.RunOnNaNUsesADraw := by
  intro s hs h hx
  obtain ⟨y, hy, -, hrun⟩ := run_computes hs h
  rw [quantize_none s (quantize32_of_nan hx)] at hy hrun
  exact ⟨y, hy, hrun⟩

/-- Settles O44: Y is +0.0 or a dequantized code. -/
theorem runCodomain : Obligations.RunCodomain := by
  intro s t h
  obtain ⟨-, rfl⟩ | ⟨-, c, -, rfl⟩ := execRun_cases h
  · rw [State.setY_y]
    exact ⟨0, by decide +kernel, by decide, by decide⟩
  · rw [State.setY_y]
    exact ⟨c, dequantize_value c⟩

/-- Settles O45. -/
theorem runWritesOnlyY : Obligations.RunWritesOnlyY := by
  intro s t h
  obtain ⟨-, rfl⟩ | ⟨hs, c, -, rfl⟩ := execRun_cases h
  · exact ⟨by rw [State.setY_eq], fun _ => rfl⟩
  · refine ⟨?frame, fun hx => ?draws⟩
    case frame =>
      rcases quantize_state s.x s with e | e <;> rw [e] <;> simp only [State.setY_eq, State.takeDraws_eq]
    case draws =>
      obtain ⟨q, hq⟩ := quantize32_of_not_nan (hx.resolve_right (not_not_intro hs))
      rw [State.setY_draws, quantize_some s hq]

end Sys2Proof.Machine
end
